-- ==== Sys2Proof/Word.lean ====
section
/-! DEFINITION. Value domains and enumerations (00_scope.md R11, R14; 10_state.md R23). -/

namespace Sys2Proof

/-- `u8` (R11): a command byte or a duty. -/
abbrev Byte := BitVec 8

/-- `u32` (R11): a command word in format CMD32 (R70). -/
abbrev CmdWord := BitVec 32

/-- R14: the three motor channels L, R and I, each always present (C8). -/
inductive Channel where
  | left
  | right
  | intake
  deriving DecidableEq, Repr

/-- R7: the channels that use the bipolar mapping. -/
inductive BipChannel where
  | left
  | right
  deriving DecidableEq, Repr

/-- R14: the direction of a channel. -/
inductive Dir where
  | neu
  | fwd
  | rev
  deriving DecidableEq, Repr

/-- R14, R28: the session state. -/
inductive Sess where
  | halted
  | idle
  | connected
  deriving DecidableEq, Repr

/-- R14, R24: the level of one output line. `pwm 0` and `low` are different values (R24, D27). -/
inductive Line where
  | low
  | pwm (duty : Byte)
  deriving DecidableEq, Repr

/-- R23: a drive instruction, and the drive state a channel holds. -/
structure DriveInstr where
  aEn : Bool
  bEn : Bool
  duty : Byte
  deriving DecidableEq, Repr

/-- R144: a remote identity. DESIGN CHOICE (log 13): the spec's opaque type is a number that names an
identity; no rule reads it but the log. -/
structure RemoteId where
  tag : Nat
  deriving DecidableEq, Repr

/-- R29: the identity of a physical output line. DESIGN CHOICE (log 14): the spec leaves the ids open. -/
structure LineId where
  id : Nat
  deriving DecidableEq, Repr, Inhabited

/-- R29: the two lines of a channel. -/
structure LinePair where
  a : LineId
  b : LineId
  deriving DecidableEq, Repr, Inhabited

/-- R52: the order in which four transport bytes make a word. -/
inductive ByteOrder where
  | littleEndian
  | bigEndian
  deriving DecidableEq, Repr

/-- R8: PWM polarity. -/
inductive Polarity where
  | activeHigh
  | activeLow
  deriving DecidableEq, Repr

end Sys2Proof
end

