-- ==== Sys2Proof/Config.lean ====
section
/-! DEFINITION. What is fixed for the machine (00_scope.md R8, 10_state.md R29) and its free values. No step writes any of it. -/

namespace Sys2Proof

/-- R8, D9: RESET_DRIVE is NEUTRAL on every channel, the intake too (D26). The spec's decision (log 3). -/
def Config.resetDrive : Channel → DriveInstr :=
  fun _ => { aEn := false, bEn := false, duty := 0 }

/-- R8, D13: FAILSAFE_ON_DISCONNECT is false, the reference behaviour. The spec's decision (log 11). -/
def Config.failsafeOnDisconnect : Bool := false

/-- R8, R52, D4: WIRE_BYTE_ORDER is little-endian. The spec's decision (log 12). -/
def Config.wireByteOrder : ByteOrder := .littleEndian

/-- R8, R113, D8: PWM_POLARITY is active-high. The spec's decision (log 14). -/
def Config.pwmPolarity : Polarity := .activeHigh

/-- Free value (R33, R170, D10): the command latch after a RESET is any u32. The argument numbers the draws
(log 1). -/
opaque Config.freeCommandLatch : Nat → CmdWord

/-- OPEN (R29, D20): PIN_MAP, the lines A and B of each channel (log 14). -/
opaque Config.pinMap : Channel → LinePair

/-- OPEN (D6): whether PWM_FULL_SCALE is 256 rather than 255 (log 14). -/
opaque Config.pwmFullScaleIs256 : Bool

/-- R8: PWM_FULL_SCALE, the duty whose high time is the whole period: 255 or 256. -/
def Config.pwmFullScale : Nat := if Config.pwmFullScaleIs256 then 256 else 255

/-- OPEN (D7): PWM_PERIOD, in a unit the spec does not give (log 14). -/
opaque Config.pwmPeriod : Nat

/-- OPEN (R32, D16): CMD_PORT_ADDR, for a platform that maps the command port onto a bus. No rule reads it
(log 14). -/
opaque Config.cmdPortAddr : Nat

end Sys2Proof
end

