-- ==== Sys2Proof/Machine/State.lean ====
section
/-! DEFINITION. The state of the block (10_state.md R22), the observation log (R30), the scheduled steps, and why a
step can stop. -/

namespace Sys2Proof.Machine

/-- R30: what the observation log records. -/
inductive LogEvent where
  | reset (ok : Bool)
  | connected (id : RemoteId)
  | disconnected
  | applied (dL dR dI : DriveInstr)
  deriving DecidableEq, Repr

/-- The steps of the two agents (R9), as the event lines of R81 list them. -/
inductive Event where
  /-- Host step RESET (R170); `ok` is TRANSPORT_INIT_OK. -/
  | reset (ok : Bool)
  /-- Host step CONNECT (R130). -/
  | connect (id : RemoteId)
  /-- Host step DISCONNECT (R132). -/
  | disconnect
  /-- Host step WRITE (R134). -/
  | write (v : CmdWord)
  /-- Host step WRITE as the transport's bytes in arrival order (R52); only four bytes make a word (R51). -/
  | deliver (bytes : List Byte)
  /-- The block's step POLL (R137). -/
  | poll
  deriving DecidableEq, Repr

/-- The state: the fields of R22, the log of R30, and the model's own `events` and `draws`. -/
structure State where
  /-- `s.sess` (R28). -/
  sess : Sess
  /-- `s.pending` (R27). -/
  pending : Bool
  /-- `s.cmd_val` (R26). -/
  cmdVal : CmdWord
  /-- `s.ch[L]` (R23). -/
  left : DriveInstr
  /-- `s.ch[R]` (R23). -/
  right : DriveInstr
  /-- `s.ch[I]` (R23). -/
  intake : DriveInstr
  /-- The observation log, oldest first (R30). No step reads it. -/
  log : List LogEvent
  /-- The model's own: the scheduled steps, next first (R9, R152; log 4). -/
  events : List Event
  /-- The model's own: how many values of `Config.freeCommandLatch` have been drawn (log 5). -/
  draws : Nat
  deriving DecidableEq, Repr

/-- Why the machine is stuck: nothing is scheduled and the block has no enabled step. No instruction and no event
raises one. All are safe: the model stops where the hardware waits. -/
inductive Fault where
  /-- R139: nothing is scheduled in IDLE, which only a CONNECT leaves. Raised by `runBlock`. Safe. -/
  | waitingForConnect
  /-- R138, R143: nothing is scheduled in CONNECTED and no command is pending. Raised by `runBlock`. Safe. -/
  | waitingForWrite
  /-- R139, R156: nothing is scheduled in HALTED, which only a RESET leaves. Raised by `runBlock`. Safe. -/
  | halted
  deriving DecidableEq, Repr

/-- Why a scheduled step is refused: the spec says it is not a move. All are safe: no state follows. -/
inductive Refusal where
  /-- An instruction without a meaning; no arm of `exec` answers it. Safe. -/
  | notModelled (mnemonic : String)
  /-- R131, R156, I12: CONNECT outside IDLE. Raised by `connect`. Safe. -/
  | connectNotIdle
  /-- R133, R156, I12: DISCONNECT outside CONNECTED. Raised by `disconnectWith`. Safe. -/
  | disconnectNotConnected
  /-- R137, R138: POLL outside CONNECTED or with no pending command. Raised by `poll`. Safe. -/
  | pollNotEnabled
  /-- R51, I11: a delivery of other than four bytes has no step. Raised by `deliver`. Safe. -/
  | deliveryNotOneWord
  deriving DecidableEq, Repr

/-- R33: the machine right after power-on and RESET(true) (log 2), with nothing scheduled. The command latch is
draw number 0 of its free value (log 1). -/
def State.reset : State where
  sess := .idle
  pending := false
  cmdVal := Config.freeCommandLatch 0
  left := Config.resetDrive .left
  right := Config.resetDrive .right
  intake := Config.resetDrive .intake
  log := [.reset true]
  events := []
  draws := 1

end Sys2Proof.Machine
end

