-- ==== Sys2Proof/Machine/Flags.lean ====
section
/-! DEFINITION. The pending flag, the block's only flag (10_state.md R27), and the enabling condition it guards
(42_session.md R137, R143). -/

namespace Sys2Proof.Machine

/-- R27, R134: WRITE sets the flag. -/
def State.setPending (s : State) : State := { s with pending := true }

/-- R27: POLL, CONNECT, DISCONNECT and RESET clear the flag. -/
def State.clearPending (s : State) : State := { s with pending := false }

/-- R137: POLL is enabled when `sess == CONNECTED and pending == 1`. -/
def State.pollEnabled (s : State) : Bool := s.sess == .connected && s.pending

end Sys2Proof.Machine
end

