-- ==== Sys2Proof/Syntax.lean ====
section
/-! DEFINITION. The rows of opcode_table.json as one inductive, and their formats (30_encoding.md R70, R75, R76, R79). -/

namespace Sys2Proof

/-- The format a word or byte is read in. Which one applies is fixed by where it stands: a command word at the
port is CMD32; its L and R fields are CMDB8_BIPOLAR, its I field CMDB8_INTAKE (R71, R79). -/
inductive Format where
  | cmd32
  | bipolar (ch : BipChannel)
  | intake
  deriving DecidableEq, Repr

/-- One constructor per row of opcode_table.json. -/
inductive Instr where
  /-- `CMD` (R90, R110, R137): intake, right and left command bytes and the ignored byte X (R73), bit 31 first. -/
  | cmd (i r l x : Byte)
  /-- `BIP_NEU` (R104): the byte 0x7F on channel L or R. -/
  | bipNeu (ch : BipChannel)
  /-- `BIP_FWD` (R102, R105): the byte `1ccccccc` on channel L or R. -/
  | bipFwd (ch : BipChannel) (c : BitVec 7)
  /-- `BIP_REV` (R103): the byte `0ccccccc`, other than 0x7F, on channel L or R. -/
  | bipRev (ch : BipChannel) (c : BitVec 7)
  /-- `INT_PWM` (R107, R108): any byte on channel I. -/
  | intPwm (c : Byte)
  deriving DecidableEq, Repr

/-- The format of each row. -/
def Instr.format : Instr → Format
  | .cmd _ _ _ _ => .cmd32
  | .bipNeu ch => .bipolar ch
  | .bipFwd ch _ => .bipolar ch
  | .bipRev ch _ => .bipolar ch
  | .intPwm _ => .intake

/-- R70, R74: the length of a format in bytes. -/
def Format.bytes : Format → Nat
  | .cmd32 => 4
  | .bipolar _ => 1
  | .intake => 1

end Sys2Proof
end

