-- ==== Sys2Proof/WellFormed.lean ====
section
/-! DEFINITION. Which instruction terms the encoding admits (30_encoding.md R75: NEU is checked before REV). -/

namespace Sys2Proof

/-- R75: the one term no encoding gives is a REV byte 0x7F, which is NEU (log 21). -/
def Instr.wf : Instr → Bool
  | .cmd _ _ _ _ => true
  | .bipNeu _ => true
  | .bipFwd _ _ => true
  | .bipRev _ c => c != 0x7F#7
  | .intPwm _ => true

end Sys2Proof
end

