-- ==== Sys2Proof/Decode.lean ====
section
/-! DEFINITION. The command codec (40_codec.md R90 to R93), the command byte classes (30_encoding.md R75, R76), the
decoder over bytes, and the encoder. -/

namespace Sys2Proof

/-- R10: byte `k` of a word, bits `8k+7 .. 8k`. -/
def byteOf (v : CmdWord) (k : Nat) : Byte := v.extractLsb' (8 * k) 8

/-- R90: DECODE, the triple `(l, r, i)`; byte 0 is not read. -/
def codecDecode (v : CmdWord) : Byte × Byte × Byte := (byteOf v 1, byteOf v 2, byteOf v 3)

/-- R93: `encode(l, r, i, x) = {i, r, l, x}`. -/
def codecEncode (l r i x : Byte) : CmdWord := i ++ r ++ l ++ x

/-- R72, R79: every word is the row CMD. Its bytes are those of DECODE, with X kept for the encoder (log 19). -/
def decodeWord (v : CmdWord) : Instr := .cmd (byteOf v 3) (byteOf v 2) (byteOf v 1) (byteOf v 0)

/-- R75: the byte `1ccccccc`. -/
def fwdByte (c : BitVec 7) : Byte := 1#1 ++ c

/-- R75: the byte `0ccccccc`. -/
def revByte (c : BitVec 7) : Byte := 0#1 ++ c

/-- R75: the byte `01111111`. -/
def neuByte : Byte := 0x7F

/-- R75: the class of a command byte on channel L or R, in the priority order NEU, FWD, REV. -/
def decodeBip (ch : BipChannel) (b : Byte) : Instr :=
  if b = neuByte then .bipNeu ch
  else if b.getLsbD 7 then .bipFwd ch (b.extractLsb' 0 7)
  else .bipRev ch (b.extractLsb' 0 7)

/-- R76: the one class of a command byte on channel I. -/
def decodeIntake (b : Byte) : Instr := .intPwm b

/-- R52: the word that four transport bytes, in arrival order, make under a byte order. -/
def assembleWith (o : ByteOrder) (t0 t1 t2 t3 : Byte) : CmdWord :=
  match o with
  | .littleEndian => t3 ++ t2 ++ t1 ++ t0
  | .bigEndian => t0 ++ t1 ++ t2 ++ t3

/-- R52: the word under this hardware's WIRE_BYTE_ORDER (log 12). -/
def assemble (t0 t1 t2 t3 : Byte) : CmdWord := assembleWith Config.wireByteOrder t0 t1 t2 t3

/-- R52: the four transport bytes of a word, in arrival order, under a byte order. -/
def splitWith (o : ByteOrder) (v : CmdWord) : List Byte :=
  match o with
  | .littleEndian => [byteOf v 0, byteOf v 1, byteOf v 2, byteOf v 3]
  | .bigEndian => [byteOf v 3, byteOf v 2, byteOf v 1, byteOf v 0]

/-- R52: the four transport bytes of a word under this hardware's WIRE_BYTE_ORDER. -/
def split (v : CmdWord) : List Byte := splitWith Config.wireByteOrder v

/-- Why the decoder gives no instruction: too few bytes for the format (R70, R77). No bit pattern is refused (R72). -/
inductive DecodeError where
  | tooShort (format : Format) (got : Nat)
  deriving DecidableEq, Repr

/-- The instruction at the head of a byte list in a given format, with the rest of the list. -/
def decode (f : Format) (bs : List Byte) : Except DecodeError (Instr × List Byte) :=
  match f with
  | .cmd32 =>
    match bs with
    | t0 :: t1 :: t2 :: t3 :: rest => .ok (decodeWord (assemble t0 t1 t2 t3), rest)
    | bs => .error (.tooShort .cmd32 bs.length)
  | .bipolar ch =>
    match bs with
    | b :: rest => .ok (decodeBip ch b, rest)
    | [] => .error (.tooShort (.bipolar ch) 0)
  | .intake =>
    match bs with
    | b :: rest => .ok (decodeIntake b, rest)
    | [] => .error (.tooShort .intake 0)

/-- The bytes of an instruction, from the encodings of R71, R75 and R76. -/
def encode : Instr → List Byte
  | .cmd i r l x => split (codecEncode l r i x)
  | .bipNeu _ => [neuByte]
  | .bipFwd _ c => [fwdByte c]
  | .bipRev _ c => [revByte c]
  | .intPwm c => [c]

/-- The host's question: the instruction read from bits numbered as opcode_table.json numbers them. An 8-bit row
is a command byte, whose format its place in the word gives (R79) and its bits do not: it is read as a byte of the
left channel (DESIGN CHOICE, log 9). -/
def decodeTableWord (nbits w : Nat) : Option Instr :=
  let read := fun (f : Format) (bs : List Byte) =>
    match decode f bs with
    | .ok (i, _) => some i
    | .error _ => none
  if nbits = 32 then read .cmd32 (split (BitVec.ofNat 32 w))
  else if nbits = 8 then read (.bipolar .left) [BitVec.ofNat 8 w]
  else none

/-- R28, D30: the spec's own 2-bit code of the session state; 11 is no state. -/
def Sess.code : Sess → BitVec 2
  | .halted => 0b00#2
  | .idle => 0b01#2
  | .connected => 0b10#2

/-- R28, I3: the session state a 2-bit code stands for; 11 is unreachable and stands for none. -/
def Sess.ofCode (b : BitVec 2) : Option Sess :=
  if b = 0b00#2 then some .halted
  else if b = 0b01#2 then some .idle
  else if b = 0b10#2 then some .connected
  else none

/-- R14, R78: the DIR field `(b_en, a_en)` of a direction. -/
def Dir.code : Dir → BitVec 2
  | .neu => 0b00#2
  | .fwd => 0b01#2
  | .rev => 0b10#2

/-- R78, I2: the direction a DIR field stands for; 11 is reserved and stands for none. -/
def Dir.ofCode (b : BitVec 2) : Option Dir :=
  if b = 0b00#2 then some .neu
  else if b = 0b01#2 then some .fwd
  else if b = 0b10#2 then some .rev
  else none

end Sys2Proof
end

