-- ==== Sys2Proof/Machine/Operands.lean ====
section
/-! DEFINITION. The motor drive mapper: a command byte to a drive instruction (41_drive_mapper.md R100 to R108, R114). -/

namespace Sys2Proof.Machine

/-- R11: `trunc_8(n)`, the byte whose unsigned value is `n mod 256`. -/
def trunc8 (n : Int) : Byte := BitVec.ofNat 8 (n % 256).toNat

/-- R100: the shifted value `s = 2 * (int(cmd) - 127)`, an exact integer. -/
def shifted (cmd : Byte) : Int := 2 * ((cmd.toNat : Int) - 127)

/-- R102: the forward branch. The duty wraps at 8 bits (R105). -/
def forward (cmd : Byte) : DriveInstr := { aEn := true, bEn := false, duty := trunc8 (shifted cmd) }

/-- R103: the reverse branch. -/
def reverse (cmd : Byte) : DriveInstr := { aEn := false, bEn := true, duty := trunc8 |shifted cmd| }

/-- R104: the neutral branch. -/
def neutral : DriveInstr := { aEn := false, bEn := false, duty := 0 }

/-- R101: MAP_BIPOLAR. The sign test reads the untruncated integer (C3). -/
def mapBipolar (cmd : Byte) : DriveInstr :=
  if shifted cmd > 0 then forward cmd
  else if shifted cmd < 0 then reverse cmd
  else neutral

/-- R107: MAP_INTAKE. Never unified with MAP_BIPOLAR (R108). -/
def mapIntake (cmd : Byte) : DriveInstr := { aEn := true, bEn := false, duty := cmd }

/-- R114: the bit-level form of MAP_BIPOLAR, for a gate-level reading. -/
def mapBipolarBits (cmd : Byte) : DriveInstr :=
  if cmd = 0x7F#8 then { aEn := false, bEn := false, duty := 0x00#8 }
  else if cmd.getLsbD 7 then { aEn := true, bEn := false, duty := (cmd.extractLsb' 0 7 + 1#7) ++ 0#1 }
  else { aEn := false, bEn := true, duty := (~~~ cmd.extractLsb' 0 7) ++ 0#1 }

/-- The channel a bipolar channel is (R7, R110). -/
def channelOf : BipChannel → Channel
  | .left => .left
  | .right => .right

end Sys2Proof.Machine
end

