-- ==== Sys2Proof/Machine/Ops.lean ====
section
/-! DEFINITION. The named operations over the state: the drive state of a channel, APPLY, the log, the consumption of
a command, and re-initialisation (41_drive_mapper.md R109, R110; 00_scope.md R12; 42_session.md R137;
70_reset_and_hazards.md R170). The block takes no exception (60_exceptions.md R150, R153, R154), so no operation
enters or leaves one; its one failure, HALTED (R155), is `reinit false`. -/

namespace Sys2Proof.Machine

/-- R23: `s.ch[c]`, the drive state of a channel. -/
def State.ch (s : State) : Channel → DriveInstr
  | .left => s.left
  | .right => s.right
  | .intake => s.intake

/-- R109: APPLY, the whole drive state of one channel overwritten. -/
def State.apply (s : State) (c : Channel) (d : DriveInstr) : State :=
  match c with
  | .left => { s with left := d }
  | .right => { s with right := d }
  | .intake => { s with intake := d }

/-- R12, R30: `emit(e)`. -/
def State.emit (s : State) (e : LogEvent) : State := { s with log := s.log ++ [e] }

/-- R132, R170: one drive state for each channel, all at once. -/
def State.driveAll (s : State) (d : Channel → DriveInstr) : State :=
  { s with left := d .left, right := d .right, intake := d .intake }

/-- R137, R110: what POLL does with the three command bytes: the flag is cleared, each channel takes its own
mapping, and the event is recorded, all in one step (R63). -/
def State.consume (s : State) (l r i : Byte) : State :=
  ((((s.clearPending).apply .left (mapBipolar l)).apply .right (mapBipolar r)).apply .intake (mapIntake i)).emit
    (.applied (mapBipolar l) (mapBipolar r) (mapIntake i))

/-- R170: every field re-initialised; the command latch takes a fresh draw of its free value (log 1). -/
def State.reinit (s : State) (ok : Bool) : State :=
  let s1 := { s with
    sess := if ok then .idle else .halted
    cmdVal := Config.freeCommandLatch s.draws
    draws := s.draws + 1 }
  (s1.clearPending.driveAll Config.resetDrive).emit (.reset ok)

end Sys2Proof.Machine
end

