-- ==== Sys2Proof/Machine/Command.lean ====
section
/-! DEFINITION. The command word row CMD (40_codec.md R90, 41_drive_mapper.md R110, 42_session.md R137). -/

namespace Sys2Proof.Machine

/-- `CMD` (R90, R110, R137): all three channels take their bytes in one step. X is not read (R73). The enabling
condition of R137 stands in `poll`, which is where a word is fetched (log 22). -/
def execCmd (i r l : Byte) (s : State) : Host.Outcome State Fault Refusal :=
  .next (s.consume l r i)

end Sys2Proof.Machine
end

