-- ==== Sys2Proof/Machine/Mapper.lean ====
section
/-! DEFINITION. The command byte rows: a class of byte mapped and applied to its channel (41_drive_mapper.md R101 to
R109). Each is total (R112). The machine runs them as parts of the consuming POLL (R94, R109; log 9). -/

namespace Sys2Proof.Machine

/-- `BIP_NEU` (R104, R109). -/
def execBipNeu (ch : BipChannel) (s : State) : Host.Outcome State Fault Refusal :=
  .next (s.apply (channelOf ch) neutral)

/-- `BIP_FWD` (R102, R105, R109). -/
def execBipFwd (ch : BipChannel) (c : BitVec 7) (s : State) : Host.Outcome State Fault Refusal :=
  .next (s.apply (channelOf ch) (forward (fwdByte c)))

/-- `BIP_REV` (R103, R109). -/
def execBipRev (ch : BipChannel) (c : BitVec 7) (s : State) : Host.Outcome State Fault Refusal :=
  .next (s.apply (channelOf ch) (reverse (revByte c)))

/-- `INT_PWM` (R107, R108, R109). -/
def execIntPwm (c : Byte) (s : State) : Host.Outcome State Fault Refusal :=
  .next (s.apply .intake (mapIntake c))

end Sys2Proof.Machine
end

