-- ==== Sys2Proof/Machine/Dispatch.lean ====
section
/-! DEFINITION. One arm per constructor of Instr. -/

namespace Sys2Proof.Machine

def exec (i : Instr) (s : State) : Host.Outcome State Fault Refusal :=
  match i with
  | .cmd inB riB leB _ => Sys2Proof.Machine.execCmd inB riB leB s
  | .bipNeu ch => Sys2Proof.Machine.execBipNeu ch s
  | .bipFwd ch c => Sys2Proof.Machine.execBipFwd ch c s
  | .bipRev ch c => Sys2Proof.Machine.execBipRev ch c s
  | .intPwm c => Sys2Proof.Machine.execIntPwm c s

end Sys2Proof.Machine
end

