-- ==== Sys2Proof/Machine/Session.lean ====
section
/-! DEFINITION. The host's steps (42_session.md R130 to R135; 70_reset_and_hazards.md R170; 20_memory.md R51, R52). -/

namespace Sys2Proof.Machine

/-- RESET (R170): enabled in every state. -/
def reset (ok : Bool) (s : State) : Host.Outcome State Fault Refusal :=
  .next (s.reinit ok)

/-- CONNECT (R130, R131). -/
def connect (id : RemoteId) (s : State) : Host.Outcome State Fault Refusal :=
  match s.sess with
  | .idle => .next (({ s with sess := .connected }).clearPending.emit (.connected id))
  | .connected => .refused .connectNotIdle
  | .halted => .refused .connectNotIdle

/-- DISCONNECT (R132, R133) with FAILSAFE_ON_DISCONNECT as an argument. -/
def disconnectWith (failsafe : Bool) (s : State) : Host.Outcome State Fault Refusal :=
  match s.sess with
  | .connected =>
    let s1 := ({ s with sess := .idle }).clearPending
    let s2 := if failsafe then s1.driveAll (fun _ => neutral) else s1
    .next (s2.emit .disconnected)
  | .idle => .refused .disconnectNotConnected
  | .halted => .refused .disconnectNotConnected

/-- DISCONNECT on this hardware (D13). -/
def disconnect (s : State) : Host.Outcome State Fault Refusal :=
  disconnectWith Config.failsafeOnDisconnect s

/-- WRITE (R134); outside CONNECTED the word is dropped and nothing changes (R135). -/
def write (v : CmdWord) (s : State) : Host.Outcome State Fault Refusal :=
  match s.sess with
  | .connected => .next ({ s with cmdVal := v }).setPending
  | .idle => .next s
  | .halted => .next s

/-- WRITE from the transport's bytes in arrival order (R52); the port takes exactly one word (R51, D29). -/
def deliver (bytes : List Byte) (s : State) : Host.Outcome State Fault Refusal :=
  match bytes with
  | [t0, t1, t2, t3] => write (assemble t0 t1 t2 t3) s
  | _ => .refused .deliveryNotOneWord

end Sys2Proof.Machine
end

