-- ==== Sys2Proof/Machine/Sequencer.lean ====
section
/-! DEFINITION. The session loop (42_session.md R137 to R141): the block's step, and which step comes next. -/

namespace Sys2Proof.Machine

/-- POLL (R137): the pending word is fetched, decoded and run. Without one it is not a move (R138). -/
def poll (s : State) : Host.Outcome State Fault Refusal :=
  if s.pollEnabled then exec (decodeWord s.cmdVal) s else .refused .pollNotEnabled

/-- One scheduled step (R141). -/
def runEvent (e : Event) (s : State) : Host.Outcome State Fault Refusal :=
  match e with
  | .reset ok => reset ok s
  | .connect id => connect id s
  | .disconnect => disconnect s
  | .write v => write v s
  | .deliver bytes => deliver bytes s
  | .poll => poll s

/-- The block on its own, when nothing is scheduled: it polls if it can (R140), else it is stuck until the host
acts (R138, R139; log 8). -/
def runBlock (s : State) : Host.Outcome State Fault Refusal :=
  if s.pollEnabled then poll s
  else
    match s.sess with
    | .idle => .fault .waitingForConnect
    | .connected => .fault .waitingForWrite
    | .halted => .fault .halted

/-- The next step: the first scheduled one, which leaves the schedule, or the block's own. -/
def nextStep (s : State) : Host.Outcome State Fault Refusal :=
  match s.events with
  | [] => runBlock s
  | e :: rest => runEvent e { s with events := rest }

/-- The command word that carries a row of `nbits` bits: a whole CMD32 word, or a command byte in field L of the
word STOP (R82), which leaves the other channels stopped (log 9). -/
def carryWord (nbits w : Nat) : CmdWord :=
  if nbits = 8 then codecEncode (BitVec.ofNat 8 w) neuByte 0x00#8 0x00#8 else BitVec.ofNat 32 w

/-- A connected session with a given word written and its POLL scheduled next (log 10). -/
def State.placeCommand (s : State) (v : CmdWord) : State :=
  { s with sess := .connected, pending := true, cmdVal := v, events := .poll :: s.events }

end Sys2Proof.Machine
end

