-- ==== Sys2Proof/Machine/Step.lean ====
section
/-! DEFINITION. The step function and the placing of an instruction to run next. -/

namespace Sys2Proof.Machine

/-- One step of the machine (R9, R12). -/
def step (s : State) : Host.Outcome State Fault Refusal := nextStep s

/-- The machine with an instruction of the opcode table standing where the next step takes its command (log 10). -/
def State.withFetchWord (s : State) (nbits w : Nat) : State := s.placeCommand (carryWord nbits w)

end Sys2Proof.Machine
end

