-- ==== Sys2Proof/Machine/Pseudo.lean ====
section
/-! DEFINITION. The pseudo-commands of 30_encoding.md R82 and the word spelling of R81, each defined by its
expansion. -/

namespace Sys2Proof.Machine

/-- R81: `CMD L=l, R=r, I=i, X=x`. -/
def cmdSpelling (l r i : Byte) (x : Byte := 0x00#8) : CmdWord := codecEncode l r i x

/-- R82: `BFWD(d)`, the byte `127 + d/2`, for an even d in 2..254. -/
def bfwd (d : Nat) : Byte := BitVec.ofNat 8 (127 + d / 2)

/-- R82: `BREV(d)`, the byte `127 - d/2`, for an even d in 2..254. -/
def brev (d : Nat) : Byte := BitVec.ofNat 8 (127 - d / 2)

/-- R82: `BNEU`, the byte 127. -/
def bneu : Byte := 0x7F#8

/-- R82: `STOP`. -/
def stopWord : CmdWord := cmdSpelling 0x7F#8 0x7F#8 0x00#8

/-- R82: `FULL_FWD`. -/
def fullFwdWord : CmdWord := cmdSpelling 0xFE#8 0xFE#8 0x00#8

/-- R82: `FULL_REV`. -/
def fullRevWord : CmdWord := cmdSpelling 0x00#8 0x00#8 0x00#8

/-- R82: `PIVOT`. -/
def pivotWord : CmdWord := cmdSpelling 0xFE#8 0x00#8 0x00#8

/-- R82: `INTAKE(d)` for d in 0..255, the drives stopped. -/
def intakeWord (d : Byte) : CmdWord := cmdSpelling 0x7F#8 0x7F#8 d

end Sys2Proof.Machine
end

