-- ==== Sys2Proof/Machine/Lines.lean ====
section
/-! DEFINITION. The six output lines as functions of the drive state (10_state.md R24, R29), the DIR field (R78), and
the waveform of a line level (41_drive_mapper.md R113). No step reads any of it. -/

namespace Sys2Proof.Machine

/-- R24: line A of a drive state. -/
def lineAOf (d : DriveInstr) : Line := if d.aEn then .pwm d.duty else .low

/-- R24: line B of a drive state. -/
def lineBOf (d : DriveInstr) : Line := if d.bEn then .pwm d.duty else .low

/-- R24: line A of channel c. -/
def State.lineA (s : State) (c : Channel) : Line := lineAOf (s.ch c)

/-- R24: line B of channel c. -/
def State.lineB (s : State) (c : Channel) : Line := lineBOf (s.ch c)

/-- R24, R29: what each physical output carries, line A before line B, channels in the order L, R, I. -/
def State.outputs (s : State) : List (LineId × Line) :=
  [.left, .right, .intake].flatMap fun c =>
    [((Config.pinMap c).a, s.lineA c), ((Config.pinMap c).b, s.lineB c)]

/-- R23, R78: the DIR field `(b_en, a_en)` of a drive state. -/
def dirCode (d : DriveInstr) : BitVec 2 := BitVec.ofBool d.bEn ++ BitVec.ofBool d.aEn

/-- R14, R78: the direction of a drive state; the reserved field 11 gives none (I2, log 15). -/
def dirOf (d : DriveInstr) : Option Dir := Dir.ofCode (dirCode d)

/-- R113: what a line level is in time: a constant low, or a pulse train. -/
inductive Waveform where
  | constantLow
  | pulses (period highTime : Rat)
  deriving DecidableEq, Repr

/-- R113: the share of the period that is active. -/
def activeShare (duty : Byte) : Rat := (duty.toNat : Rat) / (Config.pwmFullScale : Rat)

/-- R113: the waveform of a level: period PWM_PERIOD, high for `d / PWM_FULL_SCALE` of it when active-high. -/
def waveform : Line → Waveform
  | .low => .constantLow
  | .pwm d =>
    match Config.pwmPolarity with
    | .activeHigh => .pulses Config.pwmPeriod (activeShare d * Config.pwmPeriod)
    | .activeLow => .pulses Config.pwmPeriod ((1 - activeShare d) * Config.pwmPeriod)

end Sys2Proof.Machine
end

