-- ==== Sys2Proof/Safety.lean ====
section
/-! DEFINITION. The terms claims are stated in: the mapping results in arithmetic, frames, quiescence, moves, the
invariants of 10_state.md R25, and what the log says of the state. -/

namespace Sys2Proof.Machine

/-- R102, R103, R104: what a bipolar command byte makes of its channel. -/
def BipolarResult (cmd : Byte) (d : DriveInstr) : Prop :=
  (cmd.toNat > 127 → d.aEn = true ∧ d.bEn = false ∧ d.duty.toNat = (2 * cmd.toNat - 254) % 256) ∧
  (cmd.toNat < 127 → d.aEn = false ∧ d.bEn = true ∧ d.duty.toNat = 254 - 2 * cmd.toNat) ∧
  (cmd.toNat = 127 → d.aEn = false ∧ d.bEn = false ∧ d.duty.toNat = 0)

/-- R107: what a command byte makes of the intake. -/
def IntakeResult (cmd : Byte) (d : DriveInstr) : Prop :=
  d.aEn = true ∧ d.bEn = false ∧ d.duty = cmd

/-- `k` steps of the machine, as the host runs them. -/
def runSteps (k : Nat) (s : State) : Host.Outcome State Fault Refusal := Host.Core.run Sys2Proof.core k s

/-- A step that changes the drive state of one channel and nothing else. -/
def OnlyChannel (c : Channel) (s t : State) : Prop :=
  t.sess = s.sess ∧ t.pending = s.pending ∧ t.cmdVal = s.cmdVal ∧ t.log = s.log ∧ t.events = s.events ∧
  t.draws = s.draws ∧ ∀ c', c' ≠ c → t.ch c' = s.ch c'

/-- R24, R82: the drive on the three channels, and the lines of each: L and R as given, the intake at `PWM(d)` on
line A. -/
def DrivesAre (t : State) (dL dR : DriveInstr) (d : Byte) : Prop :=
  t.left = dL ∧ t.right = dR ∧ IntakeResult d t.intake ∧
  t.lineA .left = lineAOf dL ∧ t.lineB .left = lineBOf dL ∧
  t.lineA .right = lineAOf dR ∧ t.lineB .right = lineBOf dR ∧
  t.lineA .intake = .pwm d ∧ t.lineB .intake = .low

/-- Two states with the same drive state on every channel. -/
def SameDrive (s t : State) : Prop := ∀ c, t.ch c = s.ch c

/-- R143: a state in which the block has no enabled step. -/
def Quiescent (s : State) : Prop := s.pending = false ∨ s.sess ≠ .connected

/-- R141: which scheduled steps are moves in a state. -/
def IsMove (s : State) : Event → Prop
  | .reset _ => True
  | .connect _ => s.sess = .idle
  | .disconnect => s.sess = .connected
  | .write _ => True
  | .deliver bytes => bytes.length = 4
  | .poll => s.sess = .connected ∧ s.pending = true

/-- R140, R137: the next step consumes a command: POLL is enabled and comes next. -/
def ConsumesNext (s : State) : Prop :=
  s.sess = .connected ∧ s.pending = true ∧ (s.events = [] ∨ ∃ rest, s.events = .poll :: rest)

/-- Whether a command has been applied since the last RESET in the log. -/
def appliedSinceReset (l : List LogEvent) : Bool :=
  l.foldl (fun b e =>
    match e with
    | .reset _ => false
    | .connected _ => b
    | .disconnected => b
    | .applied _ _ _ => true) false

/-- R25: the invariants (a) to (e) of the block. -/
structure StateInv (s : State) : Prop where
  /-- (a): no channel drives both lines. -/
  notBoth : ∀ c, ¬((s.ch c).aEn = true ∧ (s.ch c).bEn = true)
  /-- (b): a channel with no line driven has duty 0. -/
  offIsZero : ∀ c, (s.ch c).aEn = false → (s.ch c).bEn = false → (s.ch c).duty = 0
  /-- (c): line B of the intake is never driven. -/
  intakeB : s.intake.bEn = false
  /-- (c): after an applied command, line A of the intake is driven, until a RESET. -/
  intakeA : appliedSinceReset s.log = true → s.intake.aEn = true
  /-- (d): the bipolar duties are even. -/
  leftEven : s.left.duty.toNat % 2 = 0
  rightEven : s.right.duty.toNat % 2 = 0
  /-- (e): no command is pending outside a session. -/
  noStray : s.sess ≠ .connected → s.pending = false

/-- R28, R141: the session state the log tells of; before any RESET the state machine is not entered. -/
def sessOfLog (l : List LogEvent) : Sess :=
  l.foldl (fun ss e =>
    match e with
    | .reset true => .idle
    | .reset false => .halted
    | .connected _ => .connected
    | .disconnected => .idle
    | .applied _ _ _ => ss) .halted

/-- R23, R132, R170: the drive state of a channel the log tells of: the last instruction applied, or the reset
value (or the fail-safe stop, where the machine has it). -/
def driveOfLog (c : Channel) (l : List LogEvent) : DriveInstr :=
  l.foldl (fun d e =>
    match e with
    | .reset _ => Config.resetDrive c
    | .connected _ => d
    | .disconnected => if Config.failsafeOnDisconnect then neutral else d
    | .applied dL dR dI =>
      match c with
      | .left => dL
      | .right => dR
      | .intake => dI) (Config.resetDrive c)

/-- The log and the state agree. -/
def LogTellsState (s : State) : Prop :=
  s.sess = sessOfLog s.log ∧ ∀ c, s.ch c = driveOfLog c s.log

/-- R51, R52: the word a scheduled step writes to the command port, if it is a WRITE. -/
def wordOf : Event → Option CmdWord
  | .write v => some v
  | .deliver [t0, t1, t2, t3] => some (assemble t0 t1 t2 t3)
  | .deliver _ => none
  | .reset _ => none
  | .connect _ => none
  | .disconnect => none
  | .poll => none

/-- The words a schedule writes, in order. -/
def writtenWords (es : List Event) : List CmdWord := es.filterMap wordOf

/-- The word waiting in the command latch, if any (R26, R27). -/
def waitingWords (s : State) : List CmdWord := if s.pending then [s.cmdVal] else []

/-- R137: the event a consumed word leaves in the log. -/
def appliedEvent (v : CmdWord) : LogEvent :=
  .applied (mapBipolar (byteOf v 1)) (mapBipolar (byteOf v 2)) (mapIntake (byteOf v 3))

/-- Whether a log event is an applied command. -/
def isApplied : LogEvent → Bool
  | .applied _ _ _ => true
  | .reset _ => false
  | .connected _ => false
  | .disconnected => false

/-- The applied commands of a log, in order. -/
def appliedEvents (l : List LogEvent) : List LogEvent := l.filter isApplied

/-- R57 (b), (c), R181: every run from a state applies only words its schedule writes, in order, each at most once;
no word waiting in the latch is among them. -/
def AppliesOnlyScheduled (s : State) : Prop :=
  ∀ (k : Nat) (t : State), runSteps k s = .next t →
    ∃ ws : List CmdWord, ws.Sublist (writtenWords s.events) ∧
      appliedEvents t.log = appliedEvents s.log ++ ws.map appliedEvent

end Sys2Proof.Machine
end

