-- ==== Sys2Proof/Certificates/Slice0/Obligations.lean ====
section
/-! DEFINITION. The statements for the provers, from the numbered rules of spec/. -/

open Sys2Proof Sys2Proof.Machine

/-! ## The codec and the encoding -/

/-- R90: DECODE shifts the word and keeps the low 8 bits, for every word; the row CMD carries the same three bytes. -/
def Obligations.CodecDecodeShiftsAndMasks : Prop :=
  ∀ v : CmdWord,
    (codecDecode v).1.toNat = ((v >>> 8) &&& 0xFF#32).toNat ∧
    (codecDecode v).2.1.toNat = ((v >>> 16) &&& 0xFF#32).toNat ∧
    (codecDecode v).2.2.toNat = ((v >>> 24) &&& 0xFF#32).toNat ∧
    ∃ x, decodeWord v = .cmd (codecDecode v).2.2 (codecDecode v).2.1 (codecDecode v).1 x

/-- R92: each output of DECODE depends on its own field alone, and on no bit of byte 0. -/
def Obligations.CodecFieldIndependence : Prop :=
  (∀ v w : CmdWord, v.extractLsb' 8 8 = w.extractLsb' 8 8 → (codecDecode v).1 = (codecDecode w).1) ∧
  (∀ v w : CmdWord, v.extractLsb' 16 8 = w.extractLsb' 16 8 → (codecDecode v).2.1 = (codecDecode w).2.1) ∧
  (∀ v w : CmdWord, v.extractLsb' 24 8 = w.extractLsb' 24 8 → (codecDecode v).2.2 = (codecDecode w).2.2) ∧
  (∀ (v : CmdWord) (x : Byte), codecDecode (v.extractLsb' 8 24 ++ x) = codecDecode v)

/-- DECODE of the controller's encoding gives the triple back, is onto, and two words decode to one triple exactly
when they differ in byte 0 alone. -/
def Obligations.CodecRoundTripAndFibres : Prop :=
  (∀ l r i x : Byte, codecDecode (codecEncode l r i x) = (l, r, i)) ∧
  (∀ p : Byte × Byte × Byte, ∃ v, codecDecode v = p) ∧
  (∀ v w : CmdWord, codecDecode v = codecDecode w ↔ ∃ x : Byte, w = v.extractLsb' 8 24 ++ x)

/-- R72: every 32-bit pattern decodes to a well-formed CMD, which uses exactly its four bytes, and runs to a next
state in every state: none is illegal, none traps, none means anything else. -/
def Obligations.EveryWordIsALegalCommand : Prop :=
  ∀ (t0 t1 t2 t3 : Byte) (rest : List Byte), ∃ i r l x : Byte,
    decode .cmd32 (t0 :: t1 :: t2 :: t3 :: rest) = .ok (.cmd i r l x, rest) ∧
    Instr.wf (.cmd i r l x) = true ∧
    ∀ s, ∃ t, exec (.cmd i r l x) s = .next t

/-- Decoding the encoding of a well-formed instruction in its format gives the instruction back and leaves the rest
of the bytes, for every row and every operand value. -/
def Obligations.DecodeOfEncode : Prop :=
  ∀ (i : Instr) (rest : List Byte), i.wf = true → decode i.format (encode i ++ rest) = .ok (i, rest)

/-- Whatever the decoder reads is well-formed, in the format asked for, and encodes to the bytes it was read from. -/
def Obligations.EncodeOfDecode : Prop :=
  ∀ (f : Format) (bs : List Byte) (i : Instr) (rest : List Byte),
    decode f bs = .ok (i, rest) → i.wf = true ∧ i.format = f ∧ encode i ++ rest = bs

/-- Bytes decode to an instruction exactly when there are enough of them for the format. -/
def Obligations.DecodeRefusesOnlyShortInput : Prop :=
  ∀ (f : Format) (bs : List Byte),
    ((∃ p, decode f bs = .ok p) ↔ f.bytes ≤ bs.length) ∧
    (bs.length < f.bytes → decode f bs = .error (.tooShort f bs.length))

/-- The class of a bipolar command byte is NEU at 127, FWD from 128 up, REV below 127, with the low 7 bits as the
field; every intake byte is of the one class. -/
def Obligations.CommandByteClasses : Prop :=
  ∀ (ch : BipChannel) (b : Byte),
    (b.toNat = 127 → decodeBip ch b = .bipNeu ch) ∧
    (128 ≤ b.toNat → ∃ c, decodeBip ch b = .bipFwd ch c ∧ c.toNat = b.toNat - 128) ∧
    (b.toNat < 127 → ∃ c, decodeBip ch b = .bipRev ch c ∧ c.toNat = b.toNat) ∧
    decodeIntake b = .intPwm b

/-- Words and bytes written out from the encodings decode to the instruction they stand for. -/
def Obligations.SpelledWordsDecode : Prop :=
  decode .cmd32 [0x11#8, 0xCC#8, 0xBB#8, 0xAA#8] = .ok (.cmd 0xAA#8 0xBB#8 0xCC#8 0x11#8, []) ∧
  decode (.bipolar .left) [0b01111111#8] = .ok (.bipNeu .left, []) ∧
  decode (.bipolar .right) [0b10000000#8] = .ok (.bipFwd .right 0#7, []) ∧
  decode (.bipolar .right) [0b11111111#8] = .ok (.bipFwd .right 127#7, []) ∧
  decode (.bipolar .left) [0b01111110#8] = .ok (.bipRev .left 126#7, []) ∧
  decode .intake [0b01111111#8] = .ok (.intPwm 127#8, [])

/-! ## The command byte rows -/

/-- R104: BIP_NEU makes its channel neutral and changes nothing else; the shifted value is zero at 127 alone, and
127 is the byte of the row. -/
def Obligations.BipNeuStopsItsChannel : Prop :=
  (∀ (ch : BipChannel) (s : State), ∃ t, exec (.bipNeu ch) s = .next t ∧
    t.ch (channelOf ch) = { aEn := false, bEn := false, duty := 0 } ∧
    lineAOf (t.ch (channelOf ch)) = .low ∧ lineBOf (t.ch (channelOf ch)) = .low ∧
    OnlyChannel (channelOf ch) s t) ∧
  (∀ cmd : Byte, shifted cmd = 0 ↔ cmd.toNat = 127) ∧
  (∀ ch : BipChannel, encode (.bipNeu ch) = [127#8])

/-- R102, R105: BIP_FWD drives line A of its channel with the doubled distance from 127, which wraps to 0 at the
byte 255, and changes nothing else; its bytes are those with a positive shifted value. -/
def Obligations.BipFwdDrivesLineA : Prop :=
  (∀ (ch : BipChannel) (c : BitVec 7) (s : State), ∃ t, exec (.bipFwd ch c) s = .next t ∧
    (t.ch (channelOf ch)).aEn = true ∧ (t.ch (channelOf ch)).bEn = false ∧
    (t.ch (channelOf ch)).duty.toNat = (2 * (fwdByte c).toNat - 254) % 256 ∧
    lineBOf (t.ch (channelOf ch)) = .low ∧
    ((fwdByte c).toNat = 255 → lineAOf (t.ch (channelOf ch)) = .pwm 0) ∧
    OnlyChannel (channelOf ch) s t) ∧
  (∀ cmd : Byte, shifted cmd > 0 ↔ ∃ c, cmd = fwdByte c) ∧
  (∀ c, (fwdByte c).toNat = 128 + c.toNat)

/-- R103: BIP_REV holds line A of its channel low and drives line B with the doubled distance from 127, which never
wraps, and changes nothing else; its bytes are those with a negative shifted value. -/
def Obligations.BipRevDrivesLineB : Prop :=
  (∀ (ch : BipChannel) (c : BitVec 7) (s : State), Instr.wf (.bipRev ch c) = true →
    ∃ t, exec (.bipRev ch c) s = .next t ∧
      (t.ch (channelOf ch)).aEn = false ∧ (t.ch (channelOf ch)).bEn = true ∧
      (t.ch (channelOf ch)).duty.toNat = 254 - 2 * (revByte c).toNat ∧
      lineAOf (t.ch (channelOf ch)) = .low ∧
      OnlyChannel (channelOf ch) s t) ∧
  (∀ cmd : Byte, shifted cmd < 0 ↔ ∃ c, c ≠ 127#7 ∧ cmd = revByte c) ∧
  (∀ c, (revByte c).toNat = c.toNat)

/-- R107, R108: INT_PWM drives line A of the intake with the byte itself, whatever it is, holds line B low, leaves
the direction forward, and changes nothing else. -/
def Obligations.IntPwmPassesTheByteThrough : Prop :=
  ∀ (c : Byte) (s : State), ∃ t, exec (.intPwm c) s = .next t ∧
    t.intake = { aEn := true, bEn := false, duty := c } ∧
    t.lineA .intake = .pwm c ∧ t.lineB .intake = .low ∧ dirOf t.intake = some .fwd ∧
    OnlyChannel .intake s t

/-! ## The command word -/

/-- R110: CMD maps the left and right bytes of the word it stands for by the bipolar mapping and the intake byte by
the intake mapping, all in one step; it clears the flag, records the three drive instructions and changes nothing
else. -/
def Obligations.CmdDrivesAllThreeChannels : Prop :=
  ∀ (i r l x : Byte) (s : State), ∃ t, exec (.cmd i r l x) s = .next t ∧
    decodeWord (codecEncode l r i x) = .cmd i r l x ∧ codecDecode (codecEncode l r i x) = (l, r, i) ∧
    BipolarResult l t.left ∧ BipolarResult r t.right ∧ IntakeResult i t.intake ∧
    t.pending = false ∧ t.log = s.log ++ [.applied t.left t.right t.intake] ∧
    t.sess = s.sess ∧ t.cmdVal = s.cmdVal ∧ t.events = s.events ∧ t.draws = s.draws

/-- R111: the drive state CMD leaves on a channel is a function of that channel's byte alone, whatever the other
bytes and whatever the states before. -/
def Obligations.ChannelsAreIndependent : Prop :=
  ∀ (i r l x i' r' l' x' : Byte) (s s' t t' : State),
    exec (.cmd i r l x) s = .next t → exec (.cmd i' r' l' x') s' = .next t' →
    (l = l' → t.left = t'.left) ∧ (r = r' → t.right = t'.right) ∧ (i = i' → t.intake = t'.intake)

/-- CMD is its left byte's row on L, then its right byte's row on R, then INT_PWM, with the flag cleared and the
result recorded. -/
def Obligations.CmdIsItsThreeByteRows : Prop :=
  ∀ (i r l x : Byte) (s : State), ∃ s1 s2 s3,
    exec (decodeBip .left l) s = .next s1 ∧
    exec (decodeBip .right r) s1 = .next s2 ∧
    exec (decodeIntake i) s2 = .next s3 ∧
    exec (.cmd i r l x) s =
      .next { s3 with pending := false, log := s3.log ++ [.applied s3.left s3.right s3.intake] }

/-- The bit-level form of the bipolar mapping (a 7-bit sum that wraps, or a complement, shifted left) drives the
channels exactly as CMD does. -/
def Obligations.BitLevelMapperAgrees : Prop :=
  ∀ (i r l x : Byte) (s t : State), exec (.cmd i r l x) s = .next t →
    t.left = mapBipolarBits l ∧ t.right = mapBipolarBits r

/-- Bipolar duties are even; duty 0 is at 127 and 255 alone; forward duties rise and reverse duties fall strictly
with the byte, up to the wrap. -/
def Obligations.BipolarDutyRangeAndParity : Prop :=
  (∀ b : Byte, (mapBipolar b).duty.toNat % 2 = 0) ∧
  (∀ b : Byte, (mapBipolar b).duty = 0 ↔ b.toNat = 127 ∨ b.toNat = 255) ∧
  (∀ a b : Byte, 128 ≤ a.toNat → a.toNat < b.toNat → b.toNat ≤ 254 →
    (mapBipolar a).duty.toNat < (mapBipolar b).duty.toNat) ∧
  (∀ a b : Byte, a.toNat < b.toNat → b.toNat ≤ 126 →
    (mapBipolar b).duty.toNat < (mapBipolar a).duty.toNat) ∧
  (∀ b : Byte, (dirOf (mapBipolar b) = some .rev ↔ b.toNat < 127) ∧
    (dirOf (mapBipolar b) = some .neu ↔ b.toNat = 127) ∧ (dirOf (mapBipolar b) = some .fwd ↔ 127 < b.toNat))

/-- The pseudo-commands expand to the words and bytes of their table, and give the drive of its effect column: the
byte forms through the bipolar mapping, the word forms as what `exec` of the decoded word leaves on the three
channels of any state. -/
def Obligations.PseudoCommandEffects : Prop :=
  (∀ d : Nat, d % 2 = 0 → 2 ≤ d → d ≤ 254 →
    (bfwd d).toNat = 127 + d / 2 ∧ (brev d).toNat = 127 - d / 2 ∧
    mapBipolar (bfwd d) = { aEn := true, bEn := false, duty := BitVec.ofNat 8 d } ∧
    mapBipolar (brev d) = { aEn := false, bEn := true, duty := BitVec.ofNat 8 d }) ∧
  (bneu.toNat = 127 ∧ mapBipolar bneu = { aEn := false, bEn := false, duty := 0 }) ∧
  stopWord = 0x007F7F00#32 ∧ fullFwdWord = 0x00FEFE00#32 ∧ fullRevWord = 0x00000000#32 ∧ pivotWord = 0x0000FE00#32 ∧
  (∀ d : Byte, codecDecode (intakeWord d) = (0x7F#8, 0x7F#8, d)) ∧
  (∀ s, ∃ t, exec (decodeWord stopWord) s = .next t ∧
    DrivesAre t { aEn := false, bEn := false, duty := 0 } { aEn := false, bEn := false, duty := 0 } 0) ∧
  (∀ s, ∃ t, exec (decodeWord fullFwdWord) s = .next t ∧
    DrivesAre t { aEn := true, bEn := false, duty := 254 } { aEn := true, bEn := false, duty := 254 } 0) ∧
  (∀ s, ∃ t, exec (decodeWord fullRevWord) s = .next t ∧
    DrivesAre t { aEn := false, bEn := true, duty := 254 } { aEn := false, bEn := true, duty := 254 } 0) ∧
  (∀ s, ∃ t, exec (decodeWord pivotWord) s = .next t ∧
    DrivesAre t { aEn := true, bEn := false, duty := 254 } { aEn := false, bEn := true, duty := 254 } 0) ∧
  (∀ (d : Byte) s, ∃ t, exec (decodeWord (intakeWord d)) s = .next t ∧
    DrivesAre t { aEn := false, bEn := false, duty := 0 } { aEn := false, bEn := false, duty := 0 } d)

/-! ## The block's step -/

/-- When a command is pending in a session, the next step, be the POLL scheduled or the block's own, is `exec` of
the instruction the latched word decodes to; a scheduled POLL leaves the schedule first. -/
def Obligations.PollStepRunsDecodedWord : Prop :=
  ∀ s : State, s.sess = .connected → s.pending = true →
    (∀ rest, s.events = .poll :: rest → step s = exec (decodeWord s.cmdVal) { s with events := rest }) ∧
    (s.events = [] → step s = exec (decodeWord s.cmdVal) s)

/-- R137: the consuming POLL clears the flag, decodes the latched word, applies the three mappings, and records the
event, in one step; the session and the latch stay. -/
def Obligations.PollConsumesThePendingWord : Prop :=
  ∀ (s : State) (rest : List Event), s.sess = .connected → s.pending = true → s.events = .poll :: rest →
    ∃ t, step s = .next t ∧ t.pending = false ∧
      BipolarResult (codecDecode s.cmdVal).1 t.left ∧ BipolarResult (codecDecode s.cmdVal).2.1 t.right ∧
      IntakeResult (codecDecode s.cmdVal).2.2 t.intake ∧
      t.log = s.log ++ [.applied t.left t.right t.intake] ∧
      t.sess = .connected ∧ t.cmdVal = s.cmdVal ∧ t.events = rest ∧ t.draws = s.draws

/-- A POLL with no pending command in a session is not a move, and with nothing scheduled the machine is stuck under
the name of what it waits for. The stops are the model's choice (log 7, log 8). -/
def Obligations.PollWithoutCommandIsNoMove : Prop :=
  ∀ s : State, ¬(s.sess = .connected ∧ s.pending = true) →
    (∀ rest, s.events = .poll :: rest → step s = .refused .pollNotEnabled) ∧
    (s.events = [] → (s.sess = .idle → step s = .fault .waitingForConnect) ∧
      (s.sess = .connected → step s = .fault .waitingForWrite) ∧
      (s.sess = .halted → step s = .fault .halted))

/-- What the six outputs carry after a consumed command, from any drive state before: the lines of each channel are
those of its byte, on the lines PIN_MAP binds. -/
def Obligations.OutputLinesAfterCommand : Prop :=
  ∀ s t : State, ConsumesNext s → step s = .next t →
    (∀ c b, (c = .left ∧ b = (codecDecode s.cmdVal).1 ∨ c = .right ∧ b = (codecDecode s.cmdVal).2.1) →
      (b.toNat = 127 → t.lineA c = .low ∧ t.lineB c = .low) ∧
      (127 < b.toNat → t.lineA c = .pwm (BitVec.ofNat 8 (2 * b.toNat - 254)) ∧ t.lineB c = .low) ∧
      (b.toNat < 127 → t.lineA c = .low ∧ t.lineB c = .pwm (BitVec.ofNat 8 (254 - 2 * b.toNat)))) ∧
    t.lineA .intake = .pwm (codecDecode s.cmdVal).2.2 ∧ t.lineB .intake = .low ∧
    ∀ c, ((Config.pinMap c).a, t.lineA c) ∈ t.outputs ∧ ((Config.pinMap c).b, t.lineB c) ∈ t.outputs

/-! ## The host's steps -/

/-- RESET, in every state: IDLE or HALTED, no pending command, every channel neutral with all lines low, the event
recorded. Nothing is said of the command latch, which is any word. -/
def Obligations.ResetStep : Prop :=
  ∀ (s : State) (ok : Bool) (rest : List Event), s.events = .reset ok :: rest →
    ∃ t, step s = .next t ∧ t.sess = (if ok then .idle else .halted) ∧ t.pending = false ∧
      (∀ c, t.ch c = { aEn := false, bEn := false, duty := 0 } ∧ t.lineA c = .low ∧ t.lineB c = .low) ∧
      t.log = s.log ++ [.reset ok] ∧ t.events = rest

/-- The state after power-on and RESET(true): IDLE, nothing pending, every channel neutral, one log event. -/
def Obligations.PowerOnResetState : Prop :=
  State.reset.sess = .idle ∧ State.reset.pending = false ∧
  (∀ c, State.reset.ch c = { aEn := false, bEn := false, duty := 0 } ∧
    State.reset.lineA c = .low ∧ State.reset.lineB c = .low) ∧
  State.reset.log = [.reset true] ∧
  ∀ s : State, s.log = [] → s.events = [.reset true] → ∃ t, step s = .next t ∧
    t.sess = State.reset.sess ∧ t.pending = State.reset.pending ∧ SameDrive State.reset t ∧
    t.log = State.reset.log ∧ t.events = State.reset.events

/-- CONNECT in IDLE opens the session, clears the flag, records the identity and changes nothing else; the lines
stay. -/
def Obligations.ConnectStep : Prop :=
  ∀ (s : State) (id : RemoteId) (rest : List Event), s.sess = .idle → s.events = .connect id :: rest →
    ∃ t, step s = .next t ∧ t.sess = .connected ∧ t.pending = false ∧ SameDrive s t ∧
      t.log = s.log ++ [.connected id] ∧ t.cmdVal = s.cmdVal ∧ t.events = rest ∧ t.draws = s.draws

/-- DISCONNECT in CONNECTED ends the session, clears the flag, records it, and leaves every channel driven as it
was (FAILSAFE_ON_DISCONNECT = false). -/
def Obligations.DisconnectKeepsTheMotorsRunning : Prop :=
  ∀ (s : State) (rest : List Event), s.sess = .connected → s.events = .disconnect :: rest →
    ∃ t, step s = .next t ∧ t.sess = .idle ∧ t.pending = false ∧ SameDrive s t ∧
      (∀ c, t.lineA c = s.lineA c ∧ t.lineB c = s.lineB c) ∧
      t.log = s.log ++ [.disconnected] ∧ t.cmdVal = s.cmdVal ∧ t.events = rest ∧ t.draws = s.draws

/-- With FAILSAFE_ON_DISCONNECT set, the alternative the spec names, DISCONNECT stops every channel; either way the
session ends and the flag clears. -/
def Obligations.FailsafeDisconnectStopsEveryChannel : Prop :=
  ∀ (failsafe : Bool) (s : State), s.sess = .connected →
    ∃ t, disconnectWith failsafe s = .next t ∧ t.sess = .idle ∧ t.pending = false ∧
      t.log = s.log ++ [.disconnected] ∧
      (failsafe = true → ∀ c, t.lineA c = .low ∧ t.lineB c = .low ∧ (t.ch c).duty = 0) ∧
      (failsafe = false → SameDrive s t) ∧
      t.cmdVal = s.cmdVal ∧ t.events = s.events ∧ t.draws = s.draws

/-- R134: WRITE in a session latches the word and sets the flag, whatever was latched or pending, and changes
nothing else; a POLL that comes next applies the word, also when it is the one that was already latched. -/
def Obligations.WriteLatchesTheWord : Prop :=
  ∀ (s : State) (v : CmdWord) (rest : List Event), s.sess = .connected → s.events = .write v :: rest →
    ∃ t, step s = .next t ∧ t.cmdVal = v ∧ t.pending = true ∧
      SameDrive s t ∧ t.sess = s.sess ∧ t.log = s.log ∧ t.events = rest ∧ t.draws = s.draws ∧
      ((rest = [] ∨ ∃ rest', rest = .poll :: rest') → ∃ u, step t = .next u ∧ u.pending = false ∧
        BipolarResult (codecDecode v).1 u.left ∧ BipolarResult (codecDecode v).2.1 u.right ∧
        IntakeResult (codecDecode v).2.2 u.intake ∧
        u.log = s.log ++ [.applied u.left u.right u.intake])

/-- WRITE outside a session changes nothing but the schedule. -/
def Obligations.WriteOutsideSessionIsDropped : Prop :=
  ∀ (s : State) (v : CmdWord) (rest : List Event), s.sess ≠ .connected → s.events = .write v :: rest →
    step s = .next { s with events := rest }

/-- Four transport bytes are the WRITE of the word with the first byte least significant; any other number of bytes
is not a move. The order is the spec's decision D4, the refusal the model's (log 7, log 12). -/
def Obligations.DeliveredBytesAreLittleEndian : Prop :=
  (∀ (s : State) (t0 t1 t2 t3 : Byte) (rest : List Event), ∃ v : CmdWord,
    v.toNat = t0.toNat + 256 * t1.toNat + 65536 * t2.toNat + 16777216 * t3.toNat ∧
    step { s with events := .deliver [t0, t1, t2, t3] :: rest } = step { s with events := .write v :: rest }) ∧
  (∀ (s : State) (bytes : List Byte) (rest : List Event), bytes.length ≠ 4 → s.events = .deliver bytes :: rest →
    step s = .refused .deliveryNotOneWord)

/-- A scheduled step that is a move in the state runs to a next state; one that is not is refused. The table of
moves is the spec's, with its decision D28; the refusal is the model's (log 7). -/
def Obligations.ScheduledStepRunsExactlyWhenAMove : Prop :=
  ∀ (s : State) (e : Event) (rest : List Event), s.events = e :: rest →
    (IsMove s e → ∃ t, step s = .next t ∧ t.events = rest) ∧ (¬IsMove s e → ∃ r, step s = .refused r)

/-- In HALTED nothing but RESET changes the session, the lines, the flag or the log, and with nothing scheduled the
machine is stuck. -/
def Obligations.HaltedUntilReset : Prop :=
  ∀ s : State, s.sess = .halted →
    (∀ t, step s = .next t → (∀ ok rest, s.events ≠ .reset ok :: rest) →
      t.sess = .halted ∧ SameDrive s t ∧ t.pending = s.pending ∧ t.cmdVal = s.cmdVal ∧ t.log = s.log) ∧
    (∀ id rest, s.events = .connect id :: rest → step s = .refused .connectNotIdle) ∧
    (∀ rest, s.events = .disconnect :: rest → step s = .refused .disconnectNotConnected) ∧
    (s.events = [] → step s = .fault .halted)

/-! ## Rules of the whole machine -/

/-- The state after reset meets the invariants (a) to (e). -/
def Obligations.BlockInvariantsAtReset : Prop := StateInv State.reset

/-- Every step keeps the invariants (a) to (e): no channel drives both lines, an undriven channel has duty 0, line B
of the intake is never driven and line A is after a command, bipolar duties are even, and no command is pending
outside a session. -/
def Obligations.BlockInvariantsKept : Prop :=
  ∀ s t : State, StateInv s → step s = .next t → StateInv t

/-- In a state that meets the invariants, no channel has PWM on both lines, and every channel has a direction. -/
def Obligations.NeverBothLinesDriven : Prop :=
  ∀ s : State, StateInv s → ∀ c, (s.lineA c = .low ∨ s.lineB c = .low) ∧ ∃ d, dirOf (s.ch c) = some d

/-- After reset the log tells the session and every drive state. -/
def Obligations.LogTellsStateAtReset : Prop := LogTellsState State.reset

/-- Every step keeps it so: each channel holds the last drive instruction applied (or its reset value), and the
session is the one the last RESET, CONNECT or DISCONNECT left. -/
def Obligations.LogTellsStateKept : Prop :=
  ∀ s t : State, LogTellsState s → step s = .next t → LogTellsState t

/-- Only WRITE, in a session, sets the flag, and only a consuming POLL, CONNECT, DISCONNECT or RESET clears it. -/
def Obligations.OnlyTheseStepsChangePending : Prop :=
  ∀ s t : State, step s = .next t →
    (s.pending = false → t.pending = true →
      s.sess = .connected ∧ ∃ e rest v, s.events = e :: rest ∧ wordOf e = some v ∧ t.cmdVal = v) ∧
    (s.pending = true → t.pending = false →
      ConsumesNext s ∨ (∃ id rest, s.events = .connect id :: rest) ∨ (∃ rest, s.events = .disconnect :: rest) ∨
      ∃ ok rest, s.events = .reset ok :: rest)

/-- Only RESET, CONNECT and DISCONNECT change the session state, along the edges of the session's table. -/
def Obligations.OnlyTheseStepsChangeTheSession : Prop :=
  ∀ s t : State, step s = .next t → t.sess ≠ s.sess →
    (∃ ok rest, s.events = .reset ok :: rest ∧ t.sess = if ok then .idle else .halted) ∨
    (∃ id rest, s.events = .connect id :: rest ∧ s.sess = .idle ∧ t.sess = .connected) ∨
    (∃ rest, s.events = .disconnect :: rest ∧ s.sess = .connected ∧ t.sess = .idle)

/-- R64: every line keeps its level over a step that is not a consuming POLL, a RESET, or a DISCONNECT with the
fail-safe; and a consuming POLL overwrites every line, whatever the drive state was. -/
def Obligations.LinesKeepTheirLevel : Prop :=
  (∀ s t : State, step s = .next t → ¬ConsumesNext s → (∀ ok rest, s.events ≠ .reset ok :: rest) →
    (∀ rest, s.events = .disconnect :: rest → Config.failsafeOnDisconnect = false) →
    ∀ c, t.lineA c = s.lineA c ∧ t.lineB c = s.lineB c) ∧
  (∀ (s t t' : State) (dL dR dI : DriveInstr), ConsumesNext s → step s = .next t →
    step { s with left := dL, right := dR, intake := dI } = .next t' → SameDrive t t')

/-- Every step only appends to the log, and at most one event. -/
def Obligations.LogIsAppendOnly : Prop :=
  ∀ s t : State, step s = .next t → ∃ es : List LogEvent, t.log = s.log ++ es ∧ es.length ≤ 1

/-- With no command pending, no step reads the command latch: two states that differ in it alone take the same step,
to states that again differ in it at most, and not at all once a command is pending. -/
def Obligations.UnwrittenLatchIsUnread : Prop :=
  ∀ (s : State) (v : CmdWord), s.pending = false →
    (∀ t, step s = .next t → ∃ t', step { s with cmdVal := v } = .next t' ∧
      t' = { t with cmdVal := t'.cmdVal } ∧ (t.pending = true → t' = t)) ∧
    (∀ r, step s = .fault r → step { s with cmdVal := v } = .fault r) ∧
    (∀ r, step s = .refused r → step { s with cmdVal := v } = .refused r)

/-- R73: byte 0 of the latched word has no effect: whatever it is, every step goes the same way, and no field but
the latch itself can differ after. -/
def Obligations.ReservedByteHasNoEffect : Prop :=
  ∀ (s : State) (x : Byte),
    (∀ t, step s = .next t → ∃ t', step { s with cmdVal := s.cmdVal.extractLsb' 8 24 ++ x } = .next t' ∧
      t' = { t with cmdVal := t'.cmdVal } ∧ t.outputs = t'.outputs ∧ codecDecode t'.cmdVal = codecDecode t.cmdVal) ∧
    (∀ r, step s = .fault r → step { s with cmdVal := s.cmdVal.extractLsb' 8 24 ++ x } = .fault r) ∧
    (∀ r, step s = .refused r → step { s with cmdVal := s.cmdVal.extractLsb' 8 24 ++ x } = .refused r)

/-! ## Rules over many steps -/

/-- However many words are written before a POLL, the POLL applies the last one and no other: from any state in a
session, with any command pending. -/
def Obligations.LastWriteWins : Prop :=
  ∀ (s : State) (vs : List CmdWord) (v : CmdWord) (rest : List Event), s.sess = .connected →
    s.events = vs.map .write ++ .write v :: .poll :: rest →
    ∃ t, runSteps (vs.length + 2) s = .next t ∧
      BipolarResult (codecDecode v).1 t.left ∧ BipolarResult (codecDecode v).2.1 t.right ∧
      IntakeResult (codecDecode v).2.2 t.intake ∧
      t.log = s.log ++ [.applied t.left t.right t.intake] ∧
      t.pending = false ∧ t.sess = .connected ∧ t.cmdVal = v ∧ t.events = rest

/-- Over any run from any state, the commands applied are a subsequence, in order, of the word waiting at the start
(if any) and the words written since: each is applied at most once, and nothing else is ever applied. -/
def Obligations.AppliedWordsAreWrittenWordsInOrder : Prop :=
  ∀ (k : Nat) (s t : State), runSteps k s = .next t →
    ∃ ws : List CmdWord, ws.Sublist (waitingWords s ++ writtenWords s.events) ∧
      appliedEvents t.log = appliedEvents s.log ++ ws.map appliedEvent

/-- With no further host step, the block reaches a quiescent state within one POLL, and is then stuck. -/
def Obligations.QuiescentWithinOnePoll : Prop :=
  ∀ s : State, s.events = [] →
    (Quiescent s → ∃ r, step s = .fault r) ∧
    (¬Quiescent s → ∃ t, step s = .next t ∧ t.events = [] ∧ Quiescent t ∧ t.sess = .connected)

/-- No run is longer than its schedule and one POLL more: there is no infinite run of steps that change nothing. -/
def Obligations.NoRunOutlivesItsSchedule : Prop :=
  ∀ (k : Nat) (s t : State), runSteps k s = .next t → k ≤ s.events.length + 1

/-- A session of any number of commands, each polled before the next is written: exactly one Applied event for each,
in arrival order, between one Connected and one Disconnected event. -/
def Obligations.SessionFraming : Prop :=
  ∀ (s : State) (id : RemoteId) (vs : List CmdWord) (rest : List Event), s.sess = .idle →
    s.events = .connect id :: (vs.flatMap fun v => [.write v, .poll]) ++ .disconnect :: rest →
    ∃ t, runSteps (2 * vs.length + 2) s = .next t ∧
      t.log = s.log ++ .connected id :: vs.map appliedEvent ++ [.disconnected] ∧
      t.sess = .idle ∧ t.pending = false ∧ t.events = rest

/-- A command not consumed before DISCONNECT is never applied after it: whatever is scheduled then, every run applies
only words its schedule writes. And where a CONNECT comes next, after any number of WRITEs outside the session, those
are lost too: the new session starts with nothing pending and the lines as they were, and every run from there
applies only words written from there on. The clearing at CONNECT is the spec's decision D12, the dropping D11. -/
def Obligations.NoStaleCommandAfterReconnection : Prop :=
  ∀ (s : State) (rest : List Event), s.sess = .connected → s.events = .disconnect :: rest →
    ∃ t, step s = .next t ∧ t.sess = .idle ∧ t.pending = false ∧ t.events = rest ∧ AppliesOnlyScheduled t ∧
      ∀ (es : List Event) (id : RemoteId) (rest' : List Event), rest = es ++ .connect id :: rest' →
        (∀ e ∈ es, ∃ v, wordOf e = some v) →
        ∃ t', runSteps (es.length + 1) t = .next t' ∧ t'.sess = .connected ∧ Quiescent t' ∧ t'.pending = false ∧
          SameDrive s t' ∧ t'.log = s.log ++ [.disconnected, .connected id] ∧ t'.events = rest' ∧
          AppliesOnlyScheduled t'

/-- The same word written and polled twice leaves the lines as once, with two Applied events in the log. -/
def Obligations.RepeatedWordIsIdempotentOnTheLines : Prop :=
  ∀ (s : State) (v : CmdWord) (rest : List Event), s.sess = .connected →
    s.events = .write v :: .poll :: .write v :: .poll :: rest →
    ∃ t1 t2, runSteps 2 s = .next t1 ∧ runSteps 2 t1 = .next t2 ∧
      SameDrive t1 t2 ∧ t1.outputs = t2.outputs ∧ t2.log = s.log ++ [appliedEvent v, appliedEvent v]
end

