-- ==== Sys2Proof/Laws/Mapper.lean ====
section
/-! SUPPORT. What the mapper gives for each class of command byte, in arithmetic (41_drive_mapper.md R102 to R107). -/

namespace Sys2Proof.Machine

@[simp] theorem trunc8_toNat (n : Int) : (trunc8 n).toNat = (n % 256).toNat := by
  have h : n % 256 < 256 := Int.emod_lt_of_pos n (by decide)
  have h0 : 0 ≤ n % 256 := Int.emod_nonneg n (by decide)
  simp only [trunc8, BitVec.toNat_ofNat]
  omega

theorem shifted_pos_iff (b : Byte) : shifted b > 0 ↔ b.toNat > 127 := by
  unfold shifted
  omega

theorem shifted_neg_iff (b : Byte) : shifted b < 0 ↔ b.toNat < 127 := by
  unfold shifted
  omega

/-- R102. -/
theorem forward_duty {b : Byte} (h : b.toNat > 127) : (forward b).duty.toNat = (2 * b.toNat - 254) % 256 := by
  simp only [forward, trunc8_toNat, shifted]
  omega

/-- R103. -/
theorem reverse_duty {b : Byte} (h : b.toNat < 127) : (reverse b).duty.toNat = 254 - 2 * b.toNat := by
  have hb : |shifted b| = 254 - 2 * (b.toNat : Int) := by
    rw [abs_of_neg ((shifted_neg_iff b).2 h)]
    unfold shifted
    omega
  simp only [reverse, trunc8_toNat, hb]
  omega

/-- R101. -/
theorem mapBipolar_result (b : Byte) : BipolarResult b (mapBipolar b) := by
  unfold mapBipolar
  refine ⟨fun h => ?_, fun h => ?_, fun h => ?_⟩
  · rw [if_pos ((shifted_pos_iff b).2 h)]
    exact ⟨rfl, rfl, forward_duty h⟩
  · rw [if_neg (by rw [shifted_pos_iff]; omega), if_pos ((shifted_neg_iff b).2 h)]
    exact ⟨rfl, rfl, reverse_duty h⟩
  · rw [if_neg (by rw [shifted_pos_iff]; omega), if_neg (by rw [shifted_neg_iff]; omega)]
    exact ⟨rfl, rfl, rfl⟩

end Sys2Proof.Machine
end

