-- ==== Sys2Proof/Laws/PerInstr.lean ====
section
/-! SUPPORT. Laws of every instruction as syntax. The family Length: an encoding is as long as its format says
(30_encoding.md R70, R74, R77). -/

namespace Sys2Proof.Laws.Length

/-- R70, R77: the length of an instruction is its format's, whatever its bits. -/
def Statement (i : Instr) : Prop := (encode i).length = i.format.bytes

theorem cmd (i r l x : Byte) : Statement (.cmd i r l x) := rfl
theorem bipNeu (ch : BipChannel) : Statement (.bipNeu ch) := rfl
theorem bipFwd (ch : BipChannel) (c : BitVec 7) : Statement (.bipFwd ch c) := rfl
theorem bipRev (ch : BipChannel) (c : BitVec 7) : Statement (.bipRev ch c) := rfl
theorem intPwm (c : Byte) : Statement (.intPwm c) := rfl

end Sys2Proof.Laws.Length
end

