-- ==== Sys2Proof/Laws/State.lean ====
section
/-! SUPPORT. What each operation of Machine/Flags.lean and Machine/Ops.lean leaves in each field of the state. -/

namespace Sys2Proof.Machine

variable (s : State) (c c' : Channel) (d : DriveInstr) (ds : Channel → DriveInstr) (e : LogEvent) (ok : Bool)
variable (l r i : Byte)

@[simp] theorem ch_left : s.ch .left = s.left := rfl
@[simp] theorem ch_right : s.ch .right = s.right := rfl
@[simp] theorem ch_intake : s.ch .intake = s.intake := rfl

@[simp] theorem setPending_sess : s.setPending.sess = s.sess := rfl
@[simp] theorem setPending_pending : s.setPending.pending = true := rfl
@[simp] theorem setPending_cmdVal : s.setPending.cmdVal = s.cmdVal := rfl
@[simp] theorem setPending_left : s.setPending.left = s.left := rfl
@[simp] theorem setPending_right : s.setPending.right = s.right := rfl
@[simp] theorem setPending_intake : s.setPending.intake = s.intake := rfl
@[simp] theorem setPending_log : s.setPending.log = s.log := rfl
@[simp] theorem setPending_events : s.setPending.events = s.events := rfl
@[simp] theorem setPending_draws : s.setPending.draws = s.draws := rfl

@[simp] theorem clearPending_sess : s.clearPending.sess = s.sess := rfl
@[simp] theorem clearPending_pending : s.clearPending.pending = false := rfl
@[simp] theorem clearPending_cmdVal : s.clearPending.cmdVal = s.cmdVal := rfl
@[simp] theorem clearPending_left : s.clearPending.left = s.left := rfl
@[simp] theorem clearPending_right : s.clearPending.right = s.right := rfl
@[simp] theorem clearPending_intake : s.clearPending.intake = s.intake := rfl
@[simp] theorem clearPending_log : s.clearPending.log = s.log := rfl
@[simp] theorem clearPending_events : s.clearPending.events = s.events := rfl
@[simp] theorem clearPending_draws : s.clearPending.draws = s.draws := rfl

@[simp] theorem apply_sess : (s.apply c d).sess = s.sess := by cases c <;> rfl
@[simp] theorem apply_pending : (s.apply c d).pending = s.pending := by cases c <;> rfl
@[simp] theorem apply_cmdVal : (s.apply c d).cmdVal = s.cmdVal := by cases c <;> rfl
@[simp] theorem apply_log : (s.apply c d).log = s.log := by cases c <;> rfl
@[simp] theorem apply_events : (s.apply c d).events = s.events := by cases c <;> rfl
@[simp] theorem apply_draws : (s.apply c d).draws = s.draws := by cases c <;> rfl
@[simp] theorem apply_ch_same : (s.apply c d).ch c = d := by cases c <;> rfl
@[simp] theorem apply_ch_other (h : c' ≠ c) : (s.apply c d).ch c' = s.ch c' := by
  cases c <;> cases c' <;> first | rfl | exact absurd rfl h

@[simp] theorem emit_sess : (s.emit e).sess = s.sess := rfl
@[simp] theorem emit_pending : (s.emit e).pending = s.pending := rfl
@[simp] theorem emit_cmdVal : (s.emit e).cmdVal = s.cmdVal := rfl
@[simp] theorem emit_left : (s.emit e).left = s.left := rfl
@[simp] theorem emit_right : (s.emit e).right = s.right := rfl
@[simp] theorem emit_intake : (s.emit e).intake = s.intake := rfl
@[simp] theorem emit_log : (s.emit e).log = s.log ++ [e] := rfl
@[simp] theorem emit_events : (s.emit e).events = s.events := rfl
@[simp] theorem emit_draws : (s.emit e).draws = s.draws := rfl

@[simp] theorem driveAll_sess : (s.driveAll ds).sess = s.sess := rfl
@[simp] theorem driveAll_pending : (s.driveAll ds).pending = s.pending := rfl
@[simp] theorem driveAll_cmdVal : (s.driveAll ds).cmdVal = s.cmdVal := rfl
@[simp] theorem driveAll_ch : (s.driveAll ds).ch c = ds c := by cases c <;> rfl
@[simp] theorem driveAll_left : (s.driveAll ds).left = ds .left := rfl
@[simp] theorem driveAll_right : (s.driveAll ds).right = ds .right := rfl
@[simp] theorem driveAll_intake : (s.driveAll ds).intake = ds .intake := rfl
@[simp] theorem driveAll_log : (s.driveAll ds).log = s.log := rfl
@[simp] theorem driveAll_events : (s.driveAll ds).events = s.events := rfl
@[simp] theorem driveAll_draws : (s.driveAll ds).draws = s.draws := rfl

@[simp] theorem consume_sess : (s.consume l r i).sess = s.sess := rfl
@[simp] theorem consume_pending : (s.consume l r i).pending = false := rfl
@[simp] theorem consume_cmdVal : (s.consume l r i).cmdVal = s.cmdVal := rfl
@[simp] theorem consume_left : (s.consume l r i).left = mapBipolar l := rfl
@[simp] theorem consume_right : (s.consume l r i).right = mapBipolar r := rfl
@[simp] theorem consume_intake : (s.consume l r i).intake = mapIntake i := rfl
@[simp] theorem consume_log :
    (s.consume l r i).log = s.log ++ [.applied (mapBipolar l) (mapBipolar r) (mapIntake i)] := rfl
@[simp] theorem consume_events : (s.consume l r i).events = s.events := rfl
@[simp] theorem consume_draws : (s.consume l r i).draws = s.draws := rfl

@[simp] theorem reinit_sess : (s.reinit ok).sess = if ok then .idle else .halted := rfl
@[simp] theorem reinit_pending : (s.reinit ok).pending = false := rfl
@[simp] theorem reinit_cmdVal : (s.reinit ok).cmdVal = Config.freeCommandLatch s.draws := rfl
@[simp] theorem reinit_left : (s.reinit ok).left = Config.resetDrive .left := rfl
@[simp] theorem reinit_right : (s.reinit ok).right = Config.resetDrive .right := rfl
@[simp] theorem reinit_intake : (s.reinit ok).intake = Config.resetDrive .intake := rfl
@[simp] theorem reinit_log : (s.reinit ok).log = s.log ++ [.reset ok] := rfl
@[simp] theorem reinit_events : (s.reinit ok).events = s.events := rfl
@[simp] theorem reinit_draws : (s.reinit ok).draws = s.draws + 1 := rfl

end Sys2Proof.Machine
end

