-- ==== Sys2Proof/Laws/Step.lean ====
section
/-! SUPPORT. Everything a step can do, said once: a step that answers a next state is one of seven kinds. -/

namespace Sys2Proof.Machine

/-- The state after the bytes of a word are consumed (R137). -/
theorem exec_decodeWord (v : CmdWord) (s : State) :
    exec (decodeWord v) s = .next (s.consume (byteOf v 1) (byteOf v 2) (byteOf v 3)) := rfl

theorem pollEnabled_iff (s : State) : s.pollEnabled = true ↔ s.sess = .connected ∧ s.pending = true := by
  simp [State.pollEnabled]

theorem write_connected {s : State} (v : CmdWord) (hs : s.sess = .connected) :
    write v s = .next ({ s with cmdVal := v }).setPending := by
  simp only [write, hs]

theorem write_dropped {s : State} (v : CmdWord) (hs : s.sess ≠ .connected) : write v s = .next s := by
  unfold write
  split <;> first | rfl | exact absurd ‹_› hs

/-- One case for each way a step can answer a next state (R141). -/
inductive StepCase (s : State) : State → Prop where
  | reset (ok : Bool) (rest : List Event) (h : s.events = .reset ok :: rest) :
      StepCase s (({ s with events := rest }).reinit ok)
  | connect (id : RemoteId) (rest : List Event) (h : s.events = .connect id :: rest) (hs : s.sess = .idle) :
      StepCase s (({ s with events := rest, sess := .connected }).clearPending.emit (.connected id))
  | disconnect (rest : List Event) (h : s.events = .disconnect :: rest) (hs : s.sess = .connected) :
      StepCase s (({ s with events := rest, sess := .idle }).clearPending.emit .disconnected)
  | write (e : Event) (v : CmdWord) (rest : List Event) (h : s.events = e :: rest) (he : wordOf e = some v)
      (hs : s.sess = .connected) :
      StepCase s ({ s with events := rest, cmdVal := v, pending := true })
  | dropped (e : Event) (v : CmdWord) (rest : List Event) (h : s.events = e :: rest) (he : wordOf e = some v)
      (hs : s.sess ≠ .connected) :
      StepCase s ({ s with events := rest })
  | poll (rest : List Event) (h : s.events = .poll :: rest) (hs : s.sess = .connected) (hp : s.pending = true) :
      StepCase s (({ s with events := rest }).consume (byteOf s.cmdVal 1) (byteOf s.cmdVal 2) (byteOf s.cmdVal 3))
  | block (h : s.events = []) (hs : s.sess = .connected) (hp : s.pending = true) :
      StepCase s (s.consume (byteOf s.cmdVal 1) (byteOf s.cmdVal 2) (byteOf s.cmdVal 3))

/-- A WRITE, as a word or as four transport bytes, is one of two cases (R134, R135). -/
theorem write_cases {s t : State} {e : Event} {v : CmdWord} {rest : List Event} (h : s.events = e :: rest)
    (he : wordOf e = some v) (hw : write v { s with events := rest } = .next t) : StepCase s t := by
  by_cases hs : s.sess = .connected
  · rw [write_connected (s := { s with events := rest }) v hs] at hw
    cases hw
    exact .write e v rest h he hs
  · rw [write_dropped (s := { s with events := rest }) v hs] at hw
    cases hw
    exact .dropped e v rest h he hs

theorem step_of_reset {s : State} {ok : Bool} {rest : List Event} (h : s.events = .reset ok :: rest) :
    step s = .next (({ s with events := rest }).reinit ok) := by
  simp only [step, nextStep, h, runEvent, reset]

theorem step_of_connect {s : State} {id : RemoteId} {rest : List Event} (h : s.events = .connect id :: rest)
    (hs : s.sess = .idle) :
    step s = .next (({ s with events := rest, sess := .connected }).clearPending.emit (.connected id)) := by
  simp only [step, nextStep, h, runEvent, connect, hs]

theorem step_of_disconnect {s : State} {rest : List Event} (h : s.events = .disconnect :: rest)
    (hs : s.sess = .connected) :
    step s = .next (({ s with events := rest, sess := .idle }).clearPending.emit .disconnected) := by
  simp only [step, nextStep, h, runEvent, disconnect, disconnectWith, hs, Config.failsafeOnDisconnect]
  rfl

theorem step_of_write {s : State} {v : CmdWord} {rest : List Event} (h : s.events = .write v :: rest)
    (hs : s.sess = .connected) : step s = .next { s with events := rest, cmdVal := v, pending := true } := by
  simp only [step, nextStep, h, runEvent, write, hs, State.setPending]

/-- A WRITE of either spelling outside a session only leaves the schedule (R135). -/
theorem step_of_dropped_event {s : State} {e : Event} {v : CmdWord} {rest : List Event} (h : s.events = e :: rest)
    (he : wordOf e = some v) (hs : s.sess ≠ .connected) : step s = .next { s with events := rest } := by
  have hw : ∀ w, write w { s with events := rest } = .next { s with events := rest } := fun w =>
    write_dropped (s := { s with events := rest }) w hs
  simp only [step, nextStep, h]
  cases e with
  | write w => exact hw w
  | deliver bytes =>
    simp only [runEvent, deliver]
    split
    · exact hw _
    · rename_i hne
      unfold wordOf at he
      split at he <;> simp_all
  | _ => cases he

theorem step_of_dropped_write {s : State} {v : CmdWord} {rest : List Event} (h : s.events = .write v :: rest)
    (hs : s.sess ≠ .connected) : step s = .next { s with events := rest } :=
  step_of_dropped_event h rfl hs

theorem step_of_poll {s : State} {rest : List Event} (h : s.events = .poll :: rest) (hs : s.sess = .connected)
    (hp : s.pending = true) :
    step s = .next (({ s with events := rest }).consume (byteOf s.cmdVal 1) (byteOf s.cmdVal 2) (byteOf s.cmdVal 3)) := by
  have he : ({ s with events := rest } : State).pollEnabled = true := (pollEnabled_iff _).2 ⟨hs, hp⟩
  simp only [step, nextStep, h, runEvent, poll, he, if_true, exec_decodeWord]

/-- Every step that answers a next state is one of the cases. -/
theorem step_cases {s t : State} (h : step s = .next t) : StepCase s t := by
  unfold step nextStep at h
  split at h
  · rename_i hev
    by_cases hp : s.pollEnabled = true
    · simp only [runBlock, hp, poll, if_true, exec_decodeWord] at h
      injection h with h
      subst h
      exact .block hev ((pollEnabled_iff s).1 hp).1 ((pollEnabled_iff s).1 hp).2
    · simp only [runBlock, hp] at h
      cases hs : s.sess <;> simp [hs] at h
  · rename_i e rest hev
    cases e with
    | reset ok =>
      simp only [runEvent, reset] at h
      injection h with h
      subst h
      exact .reset ok rest hev
    | connect id =>
      simp only [runEvent, connect] at h
      split at h <;> cases h
      exact .connect id rest hev ‹_›
    | disconnect =>
      simp only [runEvent, disconnect, disconnectWith, Config.failsafeOnDisconnect] at h
      split at h <;> cases h
      exact .disconnect rest hev ‹_›
    | write v => exact write_cases hev rfl h
    | deliver bytes =>
      simp only [runEvent, deliver] at h
      split at h
      · exact write_cases hev rfl h
      · cases h
    | poll =>
      simp only [runEvent, poll] at h
      split at h
      · rename_i hp
        rw [exec_decodeWord] at h
        injection h with h
        subst h
        exact .poll rest hev ((pollEnabled_iff _).1 hp).1 ((pollEnabled_iff _).1 hp).2
      · cases h

end Sys2Proof.Machine
end

