-- ==== Sys2Proof/Laws/Run.lean ====
section
/-! SUPPORT. Running several steps: one step and then the rest. -/

namespace Sys2Proof.Machine

@[simp] theorem runSteps_zero (s : State) : runSteps 0 s = .next s := rfl

theorem runSteps_succ (k : Nat) (s : State) :
    runSteps (k + 1) s =
      match step s with
      | .next t => runSteps k t
      | .fault r => .fault r
      | .refused r => .refused r := by
  have h : Sys2Proof.core.step s = step s := rfl
  simp only [runSteps, Host.Core.run, h]
  cases step s <;> rfl

/-- A step that answers a next state, then `k` more. -/
theorem runSteps_next {k : Nat} {s t : State} (h : step s = .next t) : runSteps (k + 1) s = runSteps k t := by
  rw [runSteps_succ, h]

/-- A run of `k + 1` steps is a step and a run of `k`. -/
theorem runSteps_cases {k : Nat} {s t : State} (h : runSteps (k + 1) s = .next t) :
    ∃ u, step s = .next u ∧ runSteps k u = .next t := by
  rw [runSteps_succ] at h
  cases hs : step s with
  | next u => rw [hs] at h; exact ⟨u, rfl, h⟩
  | fault r => rw [hs] at h; cases h
  | refused r => rw [hs] at h; cases h

/-- Two runs, one after the other. -/
theorem runSteps_add {j k : Nat} {s t : State} (h : runSteps j s = .next t) : runSteps (j + k) s = runSteps k t := by
  induction j generalizing s with
  | zero => cases h; rw [Nat.zero_add]
  | succ j ih =>
    obtain ⟨u, hu, hj⟩ := runSteps_cases h
    rw [Nat.add_right_comm, runSteps_next hu, ih hj]

/-- Any number of WRITEs outside a session only leave the schedule (R135). -/
theorem runSteps_dropped {s : State} {es rest : List Event} (h : s.events = es ++ rest)
    (he : ∀ e ∈ es, ∃ v, wordOf e = some v) (hs : s.sess ≠ .connected) :
    runSteps es.length s = .next { s with events := rest } := by
  induction es generalizing s with
  | nil => cases s; cases h; rfl
  | cons e es ih =>
    obtain ⟨v, hv⟩ := he e (List.mem_cons_self ..)
    rw [List.length_cons, runSteps_next (step_of_dropped_event h hv hs)]
    exact ih rfl (fun e' h' => he e' (List.mem_cons_of_mem _ h')) hs

end Sys2Proof.Machine
end

