-- ==== Sys2Proof/Tests/Slice0.lean ====
section
/-! SUPPORT. Small tests, with expected results from 95_test_vectors.md and the encodings of 30_encoding.md, and a
witness for the hypotheses of each statement. -/

namespace Sys2Proof.Tests

open Sys2Proof.Machine

/-- A field of the state after a step, where there is one. -/
def after {α : Type} (o : Host.Outcome State Fault Refusal) (f : State → α) : Option α :=
  match o with
  | .next s => some (f s)
  | .fault _ => none
  | .refused _ => none

/-- A state in session state `ss` with the given schedule, every channel neutral, nothing pending. -/
def at_ (ss : Sess) (es : List Event) : State where
  sess := ss
  pending := false
  cmdVal := 0
  left := neutral
  right := neutral
  intake := neutral
  log := []
  events := es
  draws := 1

/-- A session with the word `v` pending. -/
def pendingAt (v : CmdWord) (es : List Event) : State := { at_ .connected es with pending := true, cmdVal := v }

/-! ## Well-formedness and decoding -/

/-- R75: the byte 0x7F is NEU, so a REV term of it is ill-formed. -/
theorem test_wf_refuses_rev_of_7f : Instr.wf (.bipRev .left 0x7F#7) = false := by decide

/-- 95 L1-1: `decode(0xAABBCC11) = (0xCC, 0xBB, 0xAA)`. -/
theorem test_codec_source_example : codecDecode 0xAABBCC11#32 = (0xCC#8, 0xBB#8, 0xAA#8) := by decide

/-- 95 D-8: L is byte 1 alone. -/
theorem test_codec_left_byte : codecDecode 0x0000FF00#32 = (0xFF#8, 0x00#8, 0x00#8) := by decide

/-- R71, R52: bits 31..24 I, 23..16 R, 15..8 L, 7..0 X, the bytes in arrival order from the least significant. -/
theorem test_decode_cmd : decode .cmd32 [0b00010001#8, 0b11001100#8, 0b10111011#8, 0b10101010#8]
    = .ok (.cmd 0xAA#8 0xBB#8 0xCC#8 0x11#8, []) := rfl

/-- R75: `01111111`. -/
theorem test_decode_neu : decode (.bipolar .right) [0b01111111#8] = .ok (.bipNeu .right, []) := rfl

/-- R75: `1ccccccc` with c = 0000001. -/
theorem test_decode_fwd : decode (.bipolar .left) [0b10000001#8] = .ok (.bipFwd .left 0b0000001#7, []) := rfl

/-- R75: `0ccccccc` with c = 1111110. -/
theorem test_decode_rev : decode (.bipolar .left) [0b01111110#8] = .ok (.bipRev .left 0b1111110#7, []) := rfl

/-- R76: every byte is INT, 0x7F too. -/
theorem test_decode_int : decode .intake [0b01111111#8] = .ok (.intPwm 0x7F#8, []) := rfl

/-- The table's rows at their match words. -/
theorem test_table_words :
    decodeTableWord 32 0xAABBCC11 = some (.cmd 0xAA#8 0xBB#8 0xCC#8 0x11#8) ∧
    decodeTableWord 8 0x7F = some (.bipNeu .left) ∧ decodeTableWord 8 0x80 = some (.bipFwd .left 0#7) ∧
    decodeTableWord 8 0x00 = some (.bipRev .left 0#7) := by decide

/-- R28, I3 and R78, I2: the code 11 stands for nothing. -/
theorem test_reserved_codes : Sess.ofCode 3#2 = none ∧ Dir.ofCode 3#2 = none := by decide

/-! ## The rows, one step each -/

/-- 95 MB-6. -/
theorem test_neu : after (exec (.bipNeu .left) { at_ .connected [] with left := ⟨true, false, 9#8⟩ }) (·.left)
    = some ⟨false, false, 0#8⟩ := by decide

/-- 95 MB-7: 0x80 is FWD 2. -/
theorem test_fwd_128 : after (exec (.bipFwd .right 0#7) (at_ .connected [])) (·.right) = some ⟨true, false, 2#8⟩ := by
  decide

/-- 95 MB-12: 0xFF wraps to FWD 0. -/
theorem test_fwd_255 : after (exec (.bipFwd .right 127#7) (at_ .connected [])) (·.right) = some ⟨true, false, 0#8⟩ := by
  decide

/-- 95 MB-1: 0x00 is REV 254. -/
theorem test_rev_0 : after (exec (.bipRev .left 0#7) (at_ .connected [])) (·.left) = some ⟨false, true, 254#8⟩ := by
  decide

/-- 95 MB-5: 0x7E is REV 2. -/
theorem test_rev_126 : after (exec (.bipRev .left 126#7) (at_ .connected [])) (·.left) = some ⟨false, true, 2#8⟩ := by
  decide

/-- 95 MI-1: PWM(0) on line A, not NEU. -/
theorem test_int_0 : after (exec (.intPwm 0#8) (at_ .connected [])) (fun s => (s.lineA .intake, s.lineB .intake))
    = some (.pwm 0#8, .low) := by decide

/-- 95 MI-6: no wrap on the intake. -/
theorem test_int_255 : after (exec (.intPwm 255#8) (at_ .connected [])) (·.intake) = some ⟨true, false, 255#8⟩ := by
  decide

/-- 95 W-6, through the POLL scheduled. -/
theorem test_poll_source_word : after (step (pendingAt 0xAABBCC11#32 [.poll])) (fun s => (s.left, s.right, s.intake))
    = some (⟨true, false, 154#8⟩, ⟨true, false, 120#8⟩, ⟨true, false, 170#8⟩) := by decide

/-- 95 W-8 (PIVOT), through the block's own POLL, with its log event. -/
theorem test_block_pivot : after (step (pendingAt 0x0000FE00#32 [])) (·.log)
    = some [.applied ⟨true, false, 254#8⟩ ⟨false, true, 254#8⟩ ⟨true, false, 0#8⟩] := by decide

/-! ## The host's steps, one step each -/

/-- 95 RS-3: RESET stops every channel and ends the session. -/
theorem test_reset_stops : after (step { at_ .connected [.reset true] with left := ⟨true, false, 254#8⟩ })
    (fun s => (s.sess, s.left, s.log)) = some (.idle, ⟨false, false, 0#8⟩, [.reset true]) := by decide

/-- 95 S-4, last step: the motors keep running. -/
theorem test_disconnect_keeps : after (step { at_ .connected [.disconnect] with left := ⟨true, false, 254#8⟩ })
    (fun s => (s.sess, s.left)) = some (.idle, ⟨true, false, 254#8⟩) := by decide

/-- 95 S-5: with the fail-safe they stop. -/
theorem test_failsafe_stops : after (disconnectWith true { at_ .connected [] with left := ⟨true, false, 254#8⟩ })
    (·.left) = some ⟨false, false, 0#8⟩ := by decide

/-- 95 S-2, second WRITE: the first word is overwritten. -/
theorem test_write_overwrites : after (step (pendingAt 0x00FEFE00#32 [.write 0#32])) (fun s => (s.cmdVal, s.pending))
    = some (0#32, true) := by decide

/-- 95 S-8: a WRITE in IDLE is dropped. -/
theorem test_write_dropped : after (step (at_ .idle [.write 0x00FEFE00#32])) (fun s => (s.cmdVal, s.pending))
    = some (0#32, false) := by decide

/-- R52: the first transport byte is bits 7..0. -/
theorem test_deliver_order : after (step (at_ .connected [.deliver [0x11#8, 0xCC#8, 0xBB#8, 0xAA#8]])) (·.cmdVal)
    = some 0xAABBCC11#32 := by decide

/-- 95 RS-4: CONNECT in HALTED is not a move. -/
theorem test_connect_halted : step (at_ .halted [.connect ⟨0⟩]) = .refused .connectNotIdle := rfl

/-- 95 S-7: POLL with nothing pending is not a move. -/
theorem test_poll_nothing : step (at_ .connected [.poll]) = .refused .pollNotEnabled := rfl

/-- The command placed for the host runs as the first step after reset (95 W-6). -/
theorem test_placed_word_runs : after (step (State.reset.withFetchWord 32 0xAABBCC11)) (·.left)
    = some ⟨true, false, 154#8⟩ := by decide

/-- A byte row placed for the host drives the left channel alone of the two drives. -/
theorem test_placed_byte_runs : after (step (State.reset.withFetchWord 8 0x80)) (fun s => (s.left, s.right))
    = some (⟨true, false, 2#8⟩, ⟨false, false, 0#8⟩) := by decide

/-! ## Witnesses: the hypotheses of each statement are met -/

theorem witness_CodecFieldIndependence :
    ((0x1234FF56#32).extractLsb' 8 8 = (0x0000FF00#32).extractLsb' 8 8) ∧
    ((0x12345678#32).extractLsb' 16 8 = (0x00340000#32).extractLsb' 16 8) ∧
    ((0x12345678#32).extractLsb' 24 8 = (0x12000000#32).extractLsb' 24 8) := by decide

theorem witness_DecodeOfEncode : Instr.wf (.bipRev .right 126#7) = true ∧ Instr.wf (.cmd 0 0 0 255) = true := by
  decide

theorem witness_EncodeOfDecode : decode (.bipolar .left) [0x7E#8, 0x01#8] = .ok (.bipRev .left 126#7, [0x01#8]) := rfl

theorem witness_DecodeRefusesOnlyShortInput : [0#8, 1#8, 2#8].length < Format.bytes .cmd32 := by decide

theorem witness_CommandByteClasses :
    (127#8).toNat = 127 ∧ 128 ≤ (128#8).toNat ∧ 128 ≤ (255#8).toNat ∧ (126#8).toNat < 127 ∧ (0#8).toNat < 127 := by
  decide

theorem witness_BipFwdDrivesLineA : (fwdByte 127#7).toNat = 255 := by decide

theorem witness_BipRevDrivesLineB : Instr.wf (.bipRev .left 126#7) = true ∧ Instr.wf (.bipRev .right 0#7) = true := by
  decide

/-- Two runs that share the left byte alone. -/
theorem witness_ChannelsAreIndependent :
    (∃ t, exec (.cmd 1 2 3 4) (at_ .connected []) = .next t) ∧ ∃ t, exec (.cmd 5 6 3 8) (at_ .idle []) = .next t :=
  ⟨⟨_, rfl⟩, ⟨_, rfl⟩⟩

theorem witness_BitLevelMapperAgrees : ∃ t, exec (.cmd 0 127 255 0) (at_ .connected []) = .next t := ⟨_, rfl⟩

theorem witness_BipolarDutyRangeAndParity :
    (128 ≤ (128#8).toNat ∧ (128#8).toNat < (254#8).toNat ∧ (254#8).toNat ≤ 254) ∧
    ((0#8).toNat < (126#8).toNat ∧ (126#8).toNat ≤ 126) := by decide

theorem witness_PseudoCommandEffects : (2 % 2 = 0 ∧ 2 ≤ 2 ∧ 2 ≤ 254) ∧ (254 % 2 = 0 ∧ 2 ≤ 254 ∧ 254 ≤ 254) := by
  decide

theorem witness_PollStepRunsDecodedWord :
    ((pendingAt 5 [.poll]).sess = .connected ∧ (pendingAt 5 [.poll]).pending = true ∧
      (pendingAt 5 [.poll]).events = .poll :: []) ∧
    ((pendingAt 5 []).sess = .connected ∧ (pendingAt 5 []).pending = true ∧ (pendingAt 5 []).events = []) := by decide

theorem witness_PollConsumesThePendingWord :
    (pendingAt 5 [.poll, .poll]).sess = .connected ∧ (pendingAt 5 [.poll, .poll]).pending = true ∧
    (pendingAt 5 [.poll, .poll]).events = .poll :: [.poll] := by decide

theorem witness_PollWithoutCommandIsNoMove :
    (¬((at_ .connected [.poll]).sess = .connected ∧ (at_ .connected [.poll]).pending = true) ∧
      (at_ .connected [.poll]).events = .poll :: []) ∧
    (¬((at_ .idle []).sess = .connected ∧ (at_ .idle []).pending = true) ∧ (at_ .idle []).events = []) ∧
    (¬((at_ .connected []).sess = .connected ∧ (at_ .connected []).pending = true) ∧
      (at_ .connected []).events = []) ∧
    (¬((at_ .halted []).sess = .connected ∧ (at_ .halted []).pending = true) ∧ (at_ .halted []).events = []) := by
  decide

theorem consumesNext_pendingAt (v : CmdWord) : ConsumesNext (pendingAt v []) := ⟨rfl, rfl, .inl rfl⟩

/-- Left byte 127 and right byte 128, then left byte 126. -/
theorem witness_OutputLinesAfterCommand :
    (ConsumesNext (pendingAt 0x00807F00#32 []) ∧ ∃ t, step (pendingAt 0x00807F00#32 []) = .next t) ∧
    (codecDecode 0x00807F00#32).1.toNat = 127 ∧ 127 < (codecDecode 0x00807F00#32).2.1.toNat ∧
    (ConsumesNext (pendingAt 0x00007E00#32 []) ∧ ∃ t, step (pendingAt 0x00007E00#32 []) = .next t) ∧
    (codecDecode 0x00007E00#32).1.toNat < 127 :=
  ⟨⟨consumesNext_pendingAt _, ⟨_, rfl⟩⟩, by decide, by decide, ⟨consumesNext_pendingAt _, ⟨_, rfl⟩⟩, by decide⟩

theorem witness_ResetStep : (at_ .halted [.reset true]).events = .reset true :: [] ∧
    (at_ .connected [.reset false]).events = .reset false :: [] := by decide

theorem witness_PowerOnResetState :
    (at_ .halted [.reset true]).log = [] ∧ (at_ .halted [.reset true]).events = [.reset true] := by decide

theorem witness_ConnectStep :
    (at_ .idle [.connect ⟨7⟩]).sess = .idle ∧ (at_ .idle [.connect ⟨7⟩]).events = .connect ⟨7⟩ :: [] := by decide

theorem witness_DisconnectKeepsTheMotorsRunning :
    (pendingAt 5 [.disconnect]).sess = .connected ∧ (pendingAt 5 [.disconnect]).events = .disconnect :: [] := by decide

theorem witness_FailsafeDisconnectStopsEveryChannel : (pendingAt 5 []).sess = .connected := by decide

/-- The block's own POLL next, and a scheduled one next with the word already latched. -/
theorem witness_WriteLatchesTheWord :
    ((pendingAt 5 [.write 6]).sess = .connected ∧ (pendingAt 5 [.write 6]).events = .write 6 :: []) ∧
    ((pendingAt 5 [.write 5, .poll]).sess = .connected ∧
      (pendingAt 5 [.write 5, .poll]).events = .write 5 :: .poll :: []) := by decide

theorem witness_WriteOutsideSessionIsDropped :
    ((at_ .idle [.write 6]).sess ≠ .connected ∧ (at_ .idle [.write 6]).events = .write 6 :: []) ∧
    ((at_ .halted [.write 6]).sess ≠ .connected ∧ (at_ .halted [.write 6]).events = .write 6 :: []) := by decide

theorem witness_DeliveredBytesAreLittleEndian :
    [1#8, 2#8, 3#8].length ≠ 4 ∧ (at_ .connected [.deliver [1#8, 2#8, 3#8]]).events = .deliver [1#8, 2#8, 3#8] :: [] := by
  decide

theorem witness_ScheduledStepRunsExactlyWhenAMove :
    ((at_ .idle [.connect ⟨0⟩]).events = .connect ⟨0⟩ :: [] ∧ IsMove (at_ .idle [.connect ⟨0⟩]) (.connect ⟨0⟩)) ∧
    ((at_ .halted [.connect ⟨0⟩]).events = .connect ⟨0⟩ :: [] ∧
      ¬IsMove (at_ .halted [.connect ⟨0⟩]) (.connect ⟨0⟩)) :=
  ⟨⟨rfl, rfl⟩, rfl, by simp [IsMove, at_]⟩

theorem witness_HaltedUntilReset :
    ((at_ .halted [.write 1]).sess = .halted ∧ (∃ t, step (at_ .halted [.write 1]) = .next t) ∧
      ∀ ok rest, (at_ .halted [.write 1]).events ≠ .reset ok :: rest) ∧
    ((at_ .halted [.connect ⟨0⟩]).sess = .halted ∧ (at_ .halted [.connect ⟨0⟩]).events = .connect ⟨0⟩ :: []) ∧
    ((at_ .halted [.disconnect]).sess = .halted ∧ (at_ .halted [.disconnect]).events = .disconnect :: []) ∧
    ((at_ .halted []).sess = .halted ∧ (at_ .halted []).events = []) :=
  ⟨⟨rfl, ⟨_, rfl⟩, by simp [at_]⟩, ⟨rfl, rfl⟩, ⟨rfl, rfl⟩, ⟨rfl, rfl⟩⟩

/-- A moving state that meets the invariants: L forward 254, R reverse 2, the intake at 7, in a session. -/
def moving (es : List Event) : State :=
  { pendingAt 0x00FEFE00#32 es with
    left := ⟨true, false, 254#8⟩, right := ⟨false, true, 2#8⟩, intake := ⟨true, false, 7#8⟩
    log := [.reset true, .connected ⟨0⟩, .applied ⟨true, false, 254#8⟩ ⟨false, true, 2#8⟩ ⟨true, false, 7#8⟩] }

theorem moving_inv (es : List Event) : StateInv (moving es) where
  notBoth := fun c => by cases c <;> simp [moving, State.ch]
  offIsZero := fun c => by cases c <;> simp [moving, State.ch]
  intakeB := rfl
  intakeA := fun _ => rfl
  leftEven := by simp [moving]
  rightEven := by simp [moving]
  noStray := fun h => absurd rfl h

theorem moving_log (es : List Event) : LogTellsState (moving es) := ⟨rfl, fun c => by cases c <;> rfl⟩

theorem witness_BlockInvariantsKept : StateInv (moving [.poll]) ∧ ∃ t, step (moving [.poll]) = .next t :=
  ⟨moving_inv _, ⟨_, rfl⟩⟩

theorem witness_NeverBothLinesDriven : StateInv (moving []) := moving_inv _

theorem witness_LogTellsStateKept : LogTellsState (moving [.disconnect]) ∧ ∃ t, step (moving [.disconnect]) = .next t :=
  ⟨moving_log _, ⟨_, rfl⟩⟩

theorem witness_OnlyTheseStepsChangePending :
    (∃ t, step (at_ .connected [.write 1]) = .next t ∧ (at_ .connected [.write 1]).pending = false ∧
      t.pending = true) ∧
    (∃ t, step (moving [.disconnect]) = .next t ∧ (moving [.disconnect]).pending = true ∧ t.pending = false) :=
  ⟨⟨_, rfl, rfl, rfl⟩, ⟨_, rfl, rfl, rfl⟩⟩

theorem witness_OnlyTheseStepsChangeTheSession :
    ∃ t, step (at_ .idle [.connect ⟨0⟩]) = .next t ∧ t.sess ≠ (at_ .idle [.connect ⟨0⟩]).sess :=
  ⟨_, rfl, by decide⟩

theorem witness_LinesKeepTheirLevel :
    ((∃ t, step (moving [.write 1]) = .next t) ∧ ¬ConsumesNext (moving [.write 1]) ∧
      (∀ ok rest, (moving [.write 1]).events ≠ .reset ok :: rest) ∧
      (∀ rest, (moving [.write 1]).events = .disconnect :: rest → Config.failsafeOnDisconnect = false)) ∧
    (ConsumesNext (moving []) ∧ (∃ t, step (moving []) = .next t) ∧
      ∃ t, step { moving [] with left := neutral, right := neutral, intake := neutral } = .next t) :=
  ⟨⟨⟨_, rfl⟩, by simp [ConsumesNext, moving, pendingAt, at_], by simp [moving, pendingAt, at_], fun _ _ => rfl⟩,
    ⟨rfl, rfl, .inl rfl⟩, ⟨_, rfl⟩, ⟨_, rfl⟩⟩

theorem witness_LogIsAppendOnly : ∃ t, step (moving []) = .next t := ⟨_, rfl⟩

theorem witness_UnwrittenLatchIsUnread :
    ((at_ .connected [.write 1]).pending = false ∧ ∃ t, step (at_ .connected [.write 1]) = .next t) ∧
    ((at_ .connected []).pending = false ∧ step (at_ .connected []) = .fault .waitingForWrite) ∧
    ((at_ .connected [.poll]).pending = false ∧ step (at_ .connected [.poll]) = .refused .pollNotEnabled) :=
  ⟨⟨rfl, ⟨_, rfl⟩⟩, ⟨rfl, rfl⟩, ⟨rfl, rfl⟩⟩

theorem witness_ReservedByteHasNoEffect :
    (∃ t, step (moving [.poll]) = .next t) ∧ step (at_ .idle []) = .fault .waitingForConnect ∧
    step (at_ .idle [.poll]) = .refused .pollNotEnabled := ⟨⟨_, rfl⟩, rfl, rfl⟩

theorem witness_LastWriteWins :
    (at_ .connected [.write 1, .write 2, .write 3, .poll]).sess = .connected ∧
    (at_ .connected [.write 1, .write 2, .write 3, .poll]).events = [1, 2].map .write ++ .write 3 :: .poll :: [] := by
  decide

theorem witness_AppliedWordsAreWrittenWordsInOrder : ∃ t, runSteps 2 (moving [.write 3, .poll]) = .next t := ⟨_, rfl⟩

theorem witness_QuiescentWithinOnePoll :
    ((at_ .connected []).events = [] ∧ Quiescent (at_ .connected [])) ∧
    ((moving []).events = [] ∧ ¬Quiescent (moving [])) :=
  ⟨⟨rfl, .inl rfl⟩, rfl, by simp [Quiescent, moving, pendingAt, at_]⟩

/-- The bound is reached: one scheduled WRITE and the block's own POLL. -/
theorem witness_NoRunOutlivesItsSchedule : ∃ t, runSteps 2 (at_ .connected [.write 3]) = .next t := ⟨_, rfl⟩

theorem witness_SessionFraming :
    (at_ .idle [.connect ⟨0⟩, .write 1, .poll, .write 2, .poll, .disconnect]).sess = .idle ∧
    (at_ .idle [.connect ⟨0⟩, .write 1, .poll, .write 2, .poll, .disconnect]).events =
      .connect ⟨0⟩ :: ([1, 2].flatMap fun v => [.write v, .poll]) ++ .disconnect :: [] := by decide

/-- CONNECT right after DISCONNECT, and with two dropped WRITEs between, one of each spelling. -/
theorem witness_NoStaleCommandAfterReconnection :
    ((pendingAt 5 [.disconnect, .connect ⟨1⟩]).sess = .connected ∧
      (pendingAt 5 [.disconnect, .connect ⟨1⟩]).events = .disconnect :: ([] ++ .connect ⟨1⟩ :: [])) ∧
    ((pendingAt 5 [.disconnect, .write 6, .deliver [1, 2, 3, 4], .connect ⟨1⟩, .poll]).events =
        .disconnect :: ([.write 6, .deliver [1, 2, 3, 4]] ++ .connect ⟨1⟩ :: [.poll]) ∧
      ∀ e ∈ [Event.write 6, Event.deliver [1, 2, 3, 4]], ∃ v, wordOf e = some v) :=
  ⟨⟨rfl, rfl⟩, rfl, by simp [wordOf]⟩

theorem witness_RepeatedWordIsIdempotentOnTheLines :
    (at_ .connected [.write 9, .poll, .write 9, .poll]).sess = .connected ∧
    (at_ .connected [.write 9, .poll, .write 9, .poll]).events =
      .write 9 :: .poll :: .write 9 :: .poll :: [] := by decide

end Sys2Proof.Tests
end

section
/-! SUPPORT. When the lines of the block change (20_memory.md R64): a consuming POLL writes the drive state of every
channel, whatever it was, and a step that neither consumes a command nor resets writes none. -/

namespace Sys2Proof.Machine

/-- R110, R137: the drive state a consumed word gives to each channel. -/
def consumedDrive (v : CmdWord) : Channel → DriveInstr
  | .left => mapBipolar (byteOf v 1)
  | .right => mapBipolar (byteOf v 2)
  | .intake => mapIntake (byteOf v 3)

@[simp] theorem consume_ch (s : State) (v : CmdWord) (c : Channel) :
    (s.consume (byteOf v 1) (byteOf v 2) (byteOf v 3)).ch c = consumedDrive v c := by
  cases c <;> rfl

/-- R140: the block polls by itself once nothing is scheduled. -/
theorem step_of_block {s : State} (h : s.events = []) (hs : s.sess = .connected) (hp : s.pending = true) :
    step s = .next (s.consume (byteOf s.cmdVal 1) (byteOf s.cmdVal 2) (byteOf s.cmdVal 3)) := by
  have he : s.pollEnabled = true := (pollEnabled_iff s).2 ⟨hs, hp⟩
  simp only [step, nextStep, h, runBlock, poll, he, if_true, exec_decodeWord]

/-- The consuming step, for the scheduled POLL and the block's own alike (R137, R140). -/
theorem step_of_consumesNext {s : State} (hc : ConsumesNext s) :
    step s = .next (({ s with events := s.events.tail }).consume
      (byteOf s.cmdVal 1) (byteOf s.cmdVal 2) (byteOf s.cmdVal 3)) := by
  obtain ⟨hs, hp, hev | ⟨rest, hev⟩⟩ := hc
  · have hsame : ({ s with events := s.events.tail } : State) = s := by rw [hev, List.tail_nil, ← hev]
    rw [hsame, step_of_block hev hs hp]
  · rw [step_of_poll hev hs hp, hev, List.tail_cons]

/-- R64, R110: after a consuming step the drive states are those of the latched word; no earlier one is read. -/
theorem ch_of_consumesNext {s t : State} (hc : ConsumesNext s) (h : step s = .next t) (c : Channel) :
    t.ch c = consumedDrive s.cmdVal c := by
  rw [step_of_consumesNext hc] at h
  cases h
  exact consume_ch ..

/-- R64: a step that neither consumes a command nor resets writes no drive state. On this hardware that includes
DISCONNECT (D13). -/
theorem sameDrive_of_step {s t : State} (h : step s = .next t) (hc : ¬ConsumesNext s)
    (hr : ∀ ok rest, s.events ≠ .reset ok :: rest) : SameDrive s t := by
  cases step_cases h with
  | reset ok rest hev => exact absurd hev (hr ok rest)
  | connect | disconnect | write | dropped => exact fun _ => rfl
  | poll rest hev hs hp => exact absurd ⟨hs, hp, .inr ⟨rest, hev⟩⟩ hc
  | block hev hs hp => exact absurd ⟨hs, hp, .inl hev⟩ hc

/-- R24: the lines are functions of the drive state. -/
theorem SameDrive.lines {s t : State} (h : SameDrive s t) (c : Channel) :
    t.lineA c = s.lineA c ∧ t.lineB c = s.lineB c :=
  ⟨congrArg lineAOf (h c), congrArg lineBOf (h c)⟩

/-- Settles O41. The fail-safe premise is not used: `step_cases` already has DISCONNECT without the fail-safe, as
FAILSAFE_ON_DISCONNECT is false here (D13). -/
theorem linesKeepTheirLevel : Obligations.LinesKeepTheirLevel := by
  refine ⟨fun s t h hc hr _ c => (sameDrive_of_step h hc hr).lines c, ?_⟩
  intro s t t' dL dR dI hc h h' c
  have hc' : ConsumesNext { s with left := dL, right := dR, intake := dI } := hc
  calc t'.ch c = consumedDrive s.cmdVal c := ch_of_consumesNext hc' h' c
    _ = t.ch c := (ch_of_consumesNext hc h c).symm

end Sys2Proof.Machine
end

section
/-! SUPPORT. The encoding of a command word (30_encoding.md): every word is a legal CMD (R72), and byte 0 of the
latched word has no effect on any step (R73). -/

namespace Sys2Proof.Machine

/-- R90, R137: running a word consumes the triple DECODE gives of it. -/
theorem exec_decodeWord_codec (v : CmdWord) (s : State) :
    exec (decodeWord v) s = .next (s.consume (codecDecode v).1 (codecDecode v).2.1 (codecDecode v).2.2) := rfl

/-- Settles O4: the word of any four bytes decodes to its CMD, and running it consumes its bytes. -/
theorem everyWordIsALegalCommand : Obligations.EveryWordIsALegalCommand := by
  intro t0 t1 t2 t3 rest
  exact ⟨_, _, _, _, rfl, rfl, fun s => ⟨_, exec_decodeWord (assemble t0 t1 t2 t3) s⟩⟩

/-- R10, R73: the bytes of a word above byte 0 are the same whatever byte 0 is. -/
theorem byteOf_append {k : Nat} (v : CmdWord) (x : Byte) (h0 : 0 < k) (h3 : k ≤ 3) :
    byteOf (v.extractLsb' 8 24 ++ x) k = byteOf v k := by
  unfold byteOf
  rw [BitVec.extractLsb'_append_eq_of_le (by omega)]
  ext i hi
  have hin : 8 * k - 8 + i < 24 := by omega
  have hback : 8 + (8 * k - 8 + i) = 8 * k + i := by omega
  simp [hin, hback]

/-- R92: DECODE does not read byte 0. -/
theorem codecDecode_append (v : CmdWord) (x : Byte) : codecDecode (v.extractLsb' 8 24 ++ x) = codecDecode v := by
  simp [codecDecode, byteOf_append]

theorem step_of_unscheduled {s : State} (h : s.events = []) : step s = runBlock s := by
  simp only [step, nextStep, h]

theorem step_of_scheduled {s : State} {e : Event} {rest : List Event} (h : s.events = e :: rest) :
    step s = runEvent e { s with events := rest } := by
  simp only [step, nextStep, h]

/-- Two outcomes that are the same stop, or two states that differ at most in the latched word, and there only where
DECODE does not read it. -/
inductive AgreeUpToByte0 :
    Host.Outcome State Fault Refusal → Host.Outcome State Fault Refusal → Prop where
  | next (t : State) (v : CmdWord) (h : codecDecode v = codecDecode t.cmdVal) :
      AgreeUpToByte0 (.next t) (.next { t with cmdVal := v })
  | fault (r : Fault) : AgreeUpToByte0 (.fault r) (.fault r)
  | refused (r : Refusal) : AgreeUpToByte0 (.refused r) (.refused r)

section
variable {s : State} {v : CmdWord} (h : codecDecode v = codecDecode s.cmdVal)
include h

/-- R137: the one step that reads the latch reads it through DECODE. -/
theorem poll_agreeUpToByte0 : AgreeUpToByte0 (poll s) (poll { s with cmdVal := v }) := by
  have he : ({ s with cmdVal := v } : State).pollEnabled = s.pollEnabled := rfl
  simp only [poll, he]
  split
  · rw [exec_decodeWord_codec, exec_decodeWord_codec, h]
    exact .next _ v h
  · exact .refused _

/-- R134, R135: a WRITE replaces the latch whole or keeps it. -/
theorem write_agreeUpToByte0 (w : CmdWord) : AgreeUpToByte0 (write w s) (write w { s with cmdVal := v }) := by
  by_cases hs : s.sess = .connected
  · rw [write_connected w hs, write_connected (s := { s with cmdVal := v }) w hs]
    exact .next _ w rfl
  · rw [write_dropped w hs, write_dropped (s := { s with cmdVal := v }) w hs]
    exact .next s v h

theorem runEvent_agreeUpToByte0 (e : Event) :
    AgreeUpToByte0 (runEvent e s) (runEvent e { s with cmdVal := v }) := by
  cases e with
  | reset ok => exact .next (s.reinit ok) _ rfl
  | connect id =>
    simp only [runEvent, connect]
    cases s.sess with
    | idle => exact .next _ v h
    | connected | halted => exact .refused _
  | disconnect =>
    simp only [runEvent, disconnect, disconnectWith, Config.failsafeOnDisconnect]
    cases s.sess with
    | connected => exact .next _ v h
    | idle | halted => exact .refused _
  | write w => exact write_agreeUpToByte0 h w
  | deliver bytes =>
    simp only [runEvent, deliver]
    split
    · exact write_agreeUpToByte0 h _
    · exact .refused _
  | poll => exact poll_agreeUpToByte0 h

theorem runBlock_agreeUpToByte0 : AgreeUpToByte0 (runBlock s) (runBlock { s with cmdVal := v }) := by
  have he : ({ s with cmdVal := v } : State).pollEnabled = s.pollEnabled := rfl
  simp only [runBlock, he]
  split
  · exact poll_agreeUpToByte0 h
  · cases s.sess with
    | idle | connected | halted => exact .fault _

/-- R73: no step tells two latched words apart that DECODE does not. -/
theorem step_agreeUpToByte0 : AgreeUpToByte0 (step s) (step { s with cmdVal := v }) := by
  by_cases hev : s.events = []
  · rw [step_of_unscheduled hev, step_of_unscheduled (s := { s with cmdVal := v }) hev]
    exact runBlock_agreeUpToByte0 h
  · obtain ⟨e, rest, hev⟩ := List.exists_cons_of_ne_nil hev
    rw [step_of_scheduled hev, step_of_scheduled (s := { s with cmdVal := v }) hev]
    exact runEvent_agreeUpToByte0 (s := { s with events := rest }) h e

end

/-- Settles O44. No step tells the two words apart, since DECODE does not; and no line is a function of the latch. -/
theorem reservedByteHasNoEffect : Obligations.ReservedByteHasNoEffect := by
  intro s x
  have hagree := step_agreeUpToByte0 (codecDecode_append s.cmdVal x)
  generalize step { s with cmdVal := s.cmdVal.extractLsb' 8 24 ++ x } = o at hagree ⊢
  refine ⟨fun t ht => ?_, fun r hr => ?_, fun r hr => ?_⟩
  · rw [ht] at hagree
    cases hagree with
    | next _ v hv => exact ⟨{ t with cmdVal := v }, rfl, rfl, rfl, hv⟩
  · rw [hr] at hagree
    cases hagree with
    | fault => rfl
  · rw [hr] at hagree
    cases hagree with
    | refused => rfl

end Sys2Proof.Machine
end

section
/-! SUPPORT. The command codec (40_codec.md): DECODE against the shift and mask of R90, the field each output comes
from (R92), and the encoder of R93, whose images are the words of one fibre of DECODE. -/

namespace Sys2Proof.Machine

/-- R90: byte `k` of a word, as the source's shift and mask. -/
theorem byteOf_toNat (v : CmdWord) (k : Nat) : (byteOf v k).toNat = ((v >>> (8 * k)) &&& 0xFF#32).toNat := by
  have hmask : (0xFF#32).toNat = 2 ^ 8 - 1 := rfl
  rw [byteOf, BitVec.extractLsb'_toNat, BitVec.toNat_and, BitVec.toNat_ushiftRight, hmask,
    Nat.and_two_pow_sub_one_eq_mod]

section
variable (l r i x : Byte)

theorem byteOf_codecEncode_one : byteOf (codecEncode l r i x) 1 = l := by
  rw [byteOf, codecEncode, BitVec.extractLsb'_append_eq_of_le (by decide), BitVec.extractLsb'_append_eq_right]

theorem byteOf_codecEncode_two : byteOf (codecEncode l r i x) 2 = r := by
  rw [byteOf, codecEncode, BitVec.extractLsb'_append_eq_of_le (by decide),
    BitVec.extractLsb'_append_eq_of_le (by decide), BitVec.extractLsb'_append_eq_right]

theorem byteOf_codecEncode_three : byteOf (codecEncode l r i x) 3 = i := by
  rw [byteOf, codecEncode, BitVec.extractLsb'_append_eq_of_le (by decide),
    BitVec.extractLsb'_append_eq_of_le (by decide), BitVec.extractLsb'_append_eq_left]

/-- R93: the round trip. -/
theorem codecDecode_codecEncode : codecDecode (codecEncode l r i x) = (l, r, i) := by
  rw [codecDecode, byteOf_codecEncode_one, byteOf_codecEncode_two, byteOf_codecEncode_three]

end

/-- R93: encoding the triple of a word again with any byte 0 replaces the word's byte 0 and nothing else. -/
theorem codecEncode_codecDecode (v : CmdWord) (x : Byte) :
    codecEncode (codecDecode v).1 (codecDecode v).2.1 (codecDecode v).2.2 x = v.extractLsb' 8 24 ++ x := by
  have h16 : byteOf v 3 ++ byteOf v 2 = v.extractLsb' 16 16 :=
    BitVec.extractLsb'_append_extractLsb'_eq_extractLsb' rfl
  have h8 : v.extractLsb' 16 16 ++ byteOf v 1 = v.extractLsb' 8 24 :=
    BitVec.extractLsb'_append_extractLsb'_eq_extractLsb' rfl
  simp only [codecEncode, codecDecode, h16, h8]

/-- R93: a fibre of DECODE is a word with every value of its byte 0. -/
theorem codecDecode_eq_iff (v w : CmdWord) :
    codecDecode v = codecDecode w ↔ ∃ x : Byte, w = v.extractLsb' 8 24 ++ x := by
  constructor
  · intro h
    refine ⟨byteOf w 0, ?_⟩
    calc w = w.extractLsb' 8 24 ++ byteOf w 0 :=
        (BitVec.extractLsb'_append_extractLsb' (w := 24) (len := 8)).symm
      _ = v.extractLsb' 8 24 ++ byteOf w 0 := by
        rw [← codecEncode_codecDecode w, ← codecEncode_codecDecode v, h]
  · rintro ⟨x, rfl⟩
    exact (codecDecode_append v x).symm

/-- Settles O3. A triple is decoded from its own encoding, with any byte 0. -/
theorem codecRoundTripAndFibres : Obligations.CodecRoundTripAndFibres :=
  ⟨codecDecode_codecEncode, fun (l, r, i) => ⟨codecEncode l r i 0, codecDecode_codecEncode l r i 0⟩,
    codecDecode_eq_iff⟩

/-- Settles O1: the outputs are bytes 1, 2 and 3, and the row CMD is built of the same bytes and byte 0. -/
theorem codecDecodeShiftsAndMasks : Obligations.CodecDecodeShiftsAndMasks :=
  fun v => ⟨byteOf_toNat v 1, byteOf_toNat v 2, byteOf_toNat v 3, byteOf v 0, rfl⟩

/-- Settles O2: each output is by definition the field it is said to depend on, and `codecDecode_append` has that
byte 0 is not read. -/
theorem codecFieldIndependence : Obligations.CodecFieldIndependence :=
  ⟨fun _ _ h => h, fun _ _ h => h, fun _ _ h => h, codecDecode_append⟩

end Sys2Proof.Machine
end

section
/-! SUPPORT. The command byte classes (30_encoding.md R75, R76): their bytes in arithmetic, that every byte on L or R
is of one class, and what MAP_BIPOLAR (41_drive_mapper.md R101 to R104) makes of each. -/

namespace Sys2Proof.Machine

@[simp] theorem fwdByte_toNat (c : BitVec 7) : (fwdByte c).toNat = 128 + c.toNat := by
  rw [fwdByte, BitVec.toNat_append, ← Nat.shiftLeft_add_eq_or_of_lt c.isLt]
  rfl

@[simp] theorem revByte_toNat (c : BitVec 7) : (revByte c).toNat = c.toNat := by
  rw [revByte, BitVec.toNat_append, BitVec.toNat_ofNat, Nat.zero_mod, Nat.zero_shiftLeft, Nat.zero_or]

theorem revByte_toNat_lt {c : BitVec 7} (hc : c ≠ 127#7) : (revByte c).toNat < 127 := by
  have hne : c.toNat ≠ 127 := BitVec.toNat_ne.1 hc
  rw [revByte_toNat]
  omega

theorem eq_fwdByte {b : Byte} (h : 127 < b.toNat) : b = fwdByte (BitVec.ofNat 7 b.toNat) := by
  apply BitVec.eq_of_toNat_eq
  rw [fwdByte_toNat, BitVec.toNat_ofNat]
  omega

theorem eq_revByte {b : Byte} (h : b.toNat < 127) : b = revByte (BitVec.ofNat 7 b.toNat) := by
  apply BitVec.eq_of_toNat_eq
  rw [revByte_toNat, BitVec.toNat_ofNat]
  omega

/-- R75: the bytes of the row BIP_FWD. -/
theorem gt_127_iff_fwdByte (b : Byte) : 127 < b.toNat ↔ ∃ c, b = fwdByte c := by
  constructor
  · exact fun h => ⟨_, eq_fwdByte h⟩
  · rintro ⟨c, rfl⟩
    rw [fwdByte_toNat]
    omega

/-- R75: the bytes of the row BIP_REV. -/
theorem lt_127_iff_revByte (b : Byte) : b.toNat < 127 ↔ ∃ c, c ≠ 127#7 ∧ b = revByte c := by
  constructor
  · intro h
    refine ⟨_, fun hc => ?_, eq_revByte h⟩
    have hn : b.toNat % 128 = 127 := congrArg BitVec.toNat hc
    omega
  · rintro ⟨c, hc, rfl⟩
    exact revByte_toNat_lt hc

/-- R75: the class of a command byte on channel L or R. -/
inductive ByteClass : Byte → Prop where
  | neu : ByteClass neuByte
  | fwd (c : BitVec 7) : ByteClass (fwdByte c)
  | rev (c : BitVec 7) (hc : c ≠ 127#7) : ByteClass (revByte c)

/-- R75: every byte is of one of the three classes. -/
theorem byteClass (b : Byte) : ByteClass b := by
  rcases Nat.lt_trichotomy b.toNat 127 with h | h | h
  · obtain ⟨c, hc, rfl⟩ := (lt_127_iff_revByte b).1 h
    exact .rev c hc
  · have hb : b = neuByte := BitVec.eq_of_toNat_eq h
    rw [hb]
    exact .neu
  · obtain ⟨c, rfl⟩ := (gt_127_iff_fwdByte b).1 h
    exact .fwd c

theorem fwdByte_ne_neuByte (c : BitVec 7) : fwdByte c ≠ neuByte := by
  intro h
  have hn : 128 + c.toNat = 127 := by rw [← fwdByte_toNat, h]; rfl
  omega

theorem revByte_ne_neuByte {c : BitVec 7} (hc : c ≠ 127#7) : revByte c ≠ neuByte := by
  intro h
  have hlt := revByte_toNat_lt hc
  rw [h] at hlt
  exact absurd hlt (by decide)

theorem fwdByte_getLsbD_seven (c : BitVec 7) : (fwdByte c).getLsbD 7 = true := by
  rw [fwdByte, BitVec.getLsbD_append]
  rfl

theorem revByte_getLsbD_seven (c : BitVec 7) : (revByte c).getLsbD 7 = false := by
  rw [revByte, BitVec.getLsbD_append]
  rfl

theorem fwdByte_field (c : BitVec 7) : (fwdByte c).extractLsb' 0 7 = c :=
  BitVec.extractLsb'_append_eq_right

theorem revByte_field (c : BitVec 7) : (revByte c).extractLsb' 0 7 = c :=
  BitVec.extractLsb'_append_eq_right

theorem decodeBip_neuByte (ch : BipChannel) : decodeBip ch neuByte = .bipNeu ch := rfl

theorem decodeBip_fwdByte (ch : BipChannel) (c : BitVec 7) : decodeBip ch (fwdByte c) = .bipFwd ch c := by
  rw [decodeBip, if_neg (fwdByte_ne_neuByte c), if_pos (fwdByte_getLsbD_seven c), fwdByte_field]

theorem decodeBip_revByte (ch : BipChannel) {c : BitVec 7} (hc : c ≠ 127#7) :
    decodeBip ch (revByte c) = .bipRev ch c := by
  rw [decodeBip, if_neg (revByte_ne_neuByte hc), revByte_getLsbD_seven, if_neg Bool.false_ne_true, revByte_field]

theorem wf_bipRev_iff (ch : BipChannel) (c : BitVec 7) : Instr.wf (.bipRev ch c) = true ↔ c ≠ 127#7 :=
  bne_iff_ne

/-- R104, C3: the neutral branch is taken at 127 alone. -/
theorem shifted_zero_iff (b : Byte) : shifted b = 0 ↔ b.toNat = 127 := by
  unfold shifted
  omega

theorem mapBipolar_neuByte : mapBipolar neuByte = neutral := rfl

theorem mapBipolar_fwdByte (c : BitVec 7) : mapBipolar (fwdByte c) = forward (fwdByte c) :=
  if_pos ((shifted_pos_iff _).2 ((gt_127_iff_fwdByte _).2 ⟨c, rfl⟩))

theorem mapBipolar_revByte {c : BitVec 7} (hc : c ≠ 127#7) : mapBipolar (revByte c) = reverse (revByte c) := by
  have hneg : shifted (revByte c) < 0 := (shifted_neg_iff _).2 (revByte_toNat_lt hc)
  rw [mapBipolar, if_neg (by omega), if_pos hneg]

/-- A drive state is given by its two enables and the number its duty stands for. -/
theorem drive_eq {d : DriveInstr} {a b : Bool} {n : Nat} (ha : d.aEn = a) (hb : d.bEn = b)
    (hd : d.duty.toNat = n % 256) : d = { aEn := a, bEn := b, duty := BitVec.ofNat 8 n } := by
  have hduty : d.duty = BitVec.ofNat 8 n := BitVec.eq_of_toNat_eq (hd.trans (BitVec.toNat_ofNat n 8).symm)
  rw [← ha, ← hb, ← hduty]

section
variable {b : Byte}

/-- R102. -/
theorem mapBipolar_of_gt (h : 127 < b.toNat) :
    mapBipolar b = { aEn := true, bEn := false, duty := BitVec.ofNat 8 (2 * b.toNat - 254) } := by
  obtain ⟨ha, hb, hd⟩ := (mapBipolar_result b).1 h
  exact drive_eq ha hb hd

/-- R103. -/
theorem mapBipolar_of_lt (h : b.toNat < 127) :
    mapBipolar b = { aEn := false, bEn := true, duty := BitVec.ofNat 8 (254 - 2 * b.toNat) } := by
  obtain ⟨ha, hb, hd⟩ := (mapBipolar_result b).2.1 h
  exact drive_eq ha hb (by omega)

/-- R104. -/
theorem mapBipolar_of_eq (h : b.toNat = 127) : mapBipolar b = neutral := by
  have hb : b = neuByte := BitVec.eq_of_toNat_eq h
  rw [hb, mapBipolar_neuByte]

end

/-- R102 to R104 as one equation: the reverse branch's duty is already 0 at 127. -/
theorem mapBipolar_duty_toNat (b : Byte) :
    (mapBipolar b).duty.toNat = if 127 < b.toNat then (2 * b.toNat - 254) % 256 else 254 - 2 * b.toNat := by
  rcases Nat.lt_trichotomy b.toNat 127 with h | h | h
  · rw [mapBipolar_of_lt h, if_neg (by omega), BitVec.toNat_ofNat]
    omega
  · rw [mapBipolar_of_eq h, h]
    rfl
  · rw [mapBipolar_of_gt h, if_pos h, BitVec.toNat_ofNat]

end Sys2Proof.Machine
end

section
/-! SUPPORT. The command byte rows (41_drive_mapper.md R102 to R109): APPLY on one channel and nothing else. -/

namespace Sys2Proof.Machine

/-- R109: the frame of APPLY. -/
theorem apply_onlyChannel (s : State) (c : Channel) (d : DriveInstr) : OnlyChannel c s (s.apply c d) :=
  ⟨apply_sess .., apply_pending .., apply_cmdVal .., apply_log .., apply_events .., apply_draws ..,
    fun _ h => apply_ch_other _ _ _ _ h⟩

/-- R78: line A driven alone is the direction FWD. -/
theorem dirOf_lineA (duty : Byte) : dirOf { aEn := true, bEn := false, duty := duty } = some .fwd := by
  simp [dirOf, dirCode, Dir.ofCode]

/-- R78: line B driven alone is the direction REV. -/
theorem dirOf_lineB (duty : Byte) : dirOf { aEn := false, bEn := true, duty := duty } = some .rev := by
  simp [dirOf, dirCode, Dir.ofCode]

theorem exec_bipNeu (ch : BipChannel) (s : State) :
    exec (.bipNeu ch) s = .next (s.apply (channelOf ch) neutral) := rfl

theorem exec_bipFwd (ch : BipChannel) (c : BitVec 7) (s : State) :
    exec (.bipFwd ch c) s = .next (s.apply (channelOf ch) (forward (fwdByte c))) := rfl

theorem exec_bipRev (ch : BipChannel) (c : BitVec 7) (s : State) :
    exec (.bipRev ch c) s = .next (s.apply (channelOf ch) (reverse (revByte c))) := rfl

theorem exec_intPwm (c : Byte) (s : State) : exec (.intPwm c) s = .next (s.apply .intake (mapIntake c)) := rfl

/-- Settles O11: `forward` of a byte above 127, applied to the channel. -/
theorem bipFwdDrivesLineA : Obligations.BipFwdDrivesLineA := by
  refine ⟨fun ch c s => ⟨_, exec_bipFwd ch c s, ?_⟩, fun cmd => ?_, fwdByte_toNat⟩
  · have hgt : (fwdByte c).toNat > 127 := (gt_127_iff_fwdByte _).2 ⟨c, rfl⟩
    have hduty := forward_duty hgt
    rw [apply_ch_same]
    refine ⟨rfl, rfl, hduty, rfl, fun h255 => ?_, apply_onlyChannel ..⟩
    rw [h255] at hduty
    exact congrArg Line.pwm (BitVec.eq_of_toNat_eq hduty)
  · exact (shifted_pos_iff cmd).trans (gt_127_iff_fwdByte cmd)

/-- Settles O12: `reverse` of a byte below 127, applied to the channel. -/
theorem bipRevDrivesLineB : Obligations.BipRevDrivesLineB := by
  refine ⟨fun ch c s hwf => ⟨_, exec_bipRev ch c s, ?_⟩, fun cmd => ?_, revByte_toNat⟩
  · have hlt := revByte_toNat_lt ((wf_bipRev_iff ch c).1 hwf)
    rw [apply_ch_same]
    exact ⟨rfl, rfl, reverse_duty hlt, rfl, apply_onlyChannel ..⟩
  · exact (shifted_neg_iff cmd).trans (lt_127_iff_revByte cmd)

/-- Settles O10. -/
theorem bipNeuStopsItsChannel : Obligations.BipNeuStopsItsChannel := by
  refine ⟨fun ch s => ⟨_, exec_bipNeu ch s, ?_⟩, shifted_zero_iff, fun _ => rfl⟩
  rw [apply_ch_same]
  exact ⟨rfl, rfl, rfl, apply_onlyChannel ..⟩

/-- Settles O13. -/
theorem intPwmPassesTheByteThrough : Obligations.IntPwmPassesTheByteThrough :=
  fun c s => ⟨_, exec_intPwm c s, rfl, rfl, rfl, dirOf_lineA c, apply_onlyChannel ..⟩

end Sys2Proof.Machine
end

section
/-! SUPPORT. The command word (41_drive_mapper.md R110, R111): CMD is one consumption of its three bytes, which is
their three rows one after another; and the bit-level form of the mapping (R114). -/

namespace Sys2Proof.Machine

theorem byteOf_codecEncode_zero (l r i x : Byte) : byteOf (codecEncode l r i x) 0 = x :=
  BitVec.extractLsb'_append_eq_right

/-- R71: the word of the four bytes is the row CMD with those bytes. -/
theorem decodeWord_codecEncode (l r i x : Byte) : decodeWord (codecEncode l r i x) = .cmd i r l x := by
  rw [decodeWord, byteOf_codecEncode_zero, byteOf_codecEncode_one, byteOf_codecEncode_two, byteOf_codecEncode_three]

section
variable {i r l x : Byte} {s t : State}

theorem exec_cmd : exec (.cmd i r l x) s = .next (s.consume l r i) := rfl

/-- R110, R137: CMD answers one next state, in every state. -/
theorem eq_consume_of_exec_cmd (h : exec (.cmd i r l x) s = .next t) : t = s.consume l r i := by
  rw [exec_cmd] at h
  injection h with h
  exact h.symm

end

/-- Settles O14. -/
theorem cmdDrivesAllThreeChannels : Obligations.CmdDrivesAllThreeChannels := by
  intro i r l x s
  exact ⟨s.consume l r i, exec_cmd, decodeWord_codecEncode l r i x, codecDecode_codecEncode l r i x,
    mapBipolar_result l, mapBipolar_result r, ⟨rfl, rfl, rfl⟩, rfl, consume_log .., rfl, rfl, rfl, rfl⟩

/-- Settles O15: each drive state CMD leaves is a mapping of its own byte. -/
theorem channelsAreIndependent : Obligations.ChannelsAreIndependent := by
  intro i r l x i' r' l' x' s s' t t' h h'
  rw [eq_consume_of_exec_cmd h, eq_consume_of_exec_cmd h']
  exact ⟨congrArg mapBipolar, congrArg mapBipolar, congrArg mapIntake⟩

/-- R101, R109: the row a bipolar byte decodes to maps that byte and applies it to its channel. -/
theorem exec_decodeBip (ch : BipChannel) (b : Byte) (s : State) :
    exec (decodeBip ch b) s = .next (s.apply (channelOf ch) (mapBipolar b)) := by
  cases byteClass b with
  | neu => rw [decodeBip_neuByte, mapBipolar_neuByte, exec_bipNeu]
  | fwd c => rw [decodeBip_fwdByte, mapBipolar_fwdByte, exec_bipFwd]
  | rev c hc => rw [decodeBip_revByte ch hc, mapBipolar_revByte hc, exec_bipRev]

/-- Settles O16: CONSUME is by definition the three applications, with the flag cleared and the event recorded. -/
theorem cmdIsItsThreeByteRows : Obligations.CmdIsItsThreeByteRows := by
  intro i r l x s
  exact ⟨_, _, _, exec_decodeBip .left l s, exec_decodeBip .right r _, exec_intPwm i _, exec_cmd⟩

/-- A 7-bit value shifted left by one, in arithmetic. -/
theorem append_zero_toNat (x : BitVec 7) : (x ++ 0#1).toNat = 2 * x.toNat := by
  rw [BitVec.toNat_append]
  simp [Nat.shiftLeft_eq, Nat.mul_comm]

/-- R114: with bit 7 set, the 7-bit sum wraps where the duty does (R105). -/
theorem mapBipolarBits_fwdByte (c : BitVec 7) : mapBipolarBits (fwdByte c) = mapBipolar (fwdByte c) := by
  have hbits : mapBipolarBits (fwdByte c) = { aEn := true, bEn := false, duty := (c + 1#7) ++ 0#1 } := by
    have hne : fwdByte c ≠ 0x7F#8 := fwdByte_ne_neuByte c
    rw [mapBipolarBits, if_neg hne, if_pos (fwdByte_getLsbD_seven c), fwdByte_field]
  have hgt : 127 < (fwdByte c).toNat := (gt_127_iff_fwdByte _).2 ⟨c, rfl⟩
  rw [mapBipolar_of_gt hgt, hbits]
  refine drive_eq rfl rfl ?_
  rw [append_zero_toNat, BitVec.toNat_add, fwdByte_toNat]
  simp only [BitVec.toNat_ofNat]
  omega

/-- R114: with bit 7 clear, the complement of the field is its distance from 127. -/
theorem mapBipolarBits_revByte {c : BitVec 7} (hc : c ≠ 127#7) :
    mapBipolarBits (revByte c) = mapBipolar (revByte c) := by
  have hbits : mapBipolarBits (revByte c) = { aEn := false, bEn := true, duty := ~~~c ++ 0#1 } := by
    have hne : revByte c ≠ 0x7F#8 := revByte_ne_neuByte hc
    rw [mapBipolarBits, if_neg hne, revByte_getLsbD_seven, if_neg Bool.false_ne_true, revByte_field]
  rw [mapBipolar_of_lt (revByte_toNat_lt hc), hbits]
  refine drive_eq rfl rfl ?_
  rw [append_zero_toNat, BitVec.toNat_not, revByte_toNat]
  omega

theorem mapBipolarBits_eq_mapBipolar (b : Byte) : mapBipolarBits b = mapBipolar b := by
  cases byteClass b with
  | neu => rfl
  | fwd c => exact mapBipolarBits_fwdByte c
  | rev c hc => exact mapBipolarBits_revByte hc

/-- Settles O17: the two forms agree on every byte. -/
theorem bitLevelMapperAgrees : Obligations.BitLevelMapperAgrees := by
  intro i r l x s t h
  rw [eq_consume_of_exec_cmd h, mapBipolarBits_eq_mapBipolar, mapBipolarBits_eq_mapBipolar]
  exact ⟨rfl, rfl⟩

end Sys2Proof.Machine
end

section
/-! SUPPORT. The range, the direction and the output lines of the bipolar mapping (41_drive_mapper.md R102 to R106;
10_state.md R24, R29). -/

namespace Sys2Proof.Machine

theorem mapBipolar_duty_even (b : Byte) : (mapBipolar b).duty.toNat % 2 = 0 := by
  rw [mapBipolar_duty_toNat]
  split <;> omega

/-- R104, R105: neutral, and the forward byte whose duty wraps. -/
theorem mapBipolar_duty_eq_zero_iff (b : Byte) : (mapBipolar b).duty = 0 ↔ b.toNat = 127 ∨ b.toNat = 255 := by
  have h0 : (0 : Byte).toNat = 0 := rfl
  rw [← BitVec.toNat_inj, mapBipolar_duty_toNat, h0]
  split <;> omega

theorem mapBipolar_dir (b : Byte) :
    (dirOf (mapBipolar b) = some .rev ↔ b.toNat < 127) ∧ (dirOf (mapBipolar b) = some .neu ↔ b.toNat = 127) ∧
    (dirOf (mapBipolar b) = some .fwd ↔ 127 < b.toNat) := by
  rcases Nat.lt_trichotomy b.toNat 127 with h | h | h
  · have hd : dirOf (mapBipolar b) = some .rev := by rw [mapBipolar_of_lt h, dirOf_lineB]
    simp only [hd, Option.some.injEq, reduceCtorEq, true_iff, false_iff]
    omega
  · have hd : dirOf (mapBipolar b) = some .neu := by rw [mapBipolar_of_eq h]; rfl
    simp only [hd, Option.some.injEq, reduceCtorEq, true_iff, false_iff]
    omega
  · have hd : dirOf (mapBipolar b) = some .fwd := by rw [mapBipolar_of_gt h, dirOf_lineA]
    simp only [hd, Option.some.injEq, reduceCtorEq, true_iff, false_iff]
    omega

/-- Settles O18. The two monotone ranges lie on either side of 127, below the wrap of R105. -/
theorem bipolarDutyRangeAndParity : Obligations.BipolarDutyRangeAndParity := by
  refine ⟨mapBipolar_duty_even, mapBipolar_duty_eq_zero_iff, fun a b ha hab hb => ?_, fun a b hab hb => ?_,
    mapBipolar_dir⟩
  · rw [mapBipolar_duty_toNat, mapBipolar_duty_toNat, if_pos (by omega), if_pos (by omega)]
    omega
  · rw [mapBipolar_duty_toNat, mapBipolar_duty_toNat, if_neg (by omega), if_neg (by omega)]
    omega

/-- R24: the lines of a channel that holds the result of a bipolar byte. -/
theorem lines_of_mapBipolar {t : State} {c : Channel} {b : Byte} (h : t.ch c = mapBipolar b) :
    (b.toNat = 127 → t.lineA c = .low ∧ t.lineB c = .low) ∧
    (127 < b.toNat → t.lineA c = .pwm (BitVec.ofNat 8 (2 * b.toNat - 254)) ∧ t.lineB c = .low) ∧
    (b.toNat < 127 → t.lineA c = .low ∧ t.lineB c = .pwm (BitVec.ofNat 8 (254 - 2 * b.toNat))) := by
  rw [State.lineA, State.lineB, h]
  refine ⟨fun hb => ?_, fun hb => ?_, fun hb => ?_⟩
  · rw [mapBipolar_of_eq hb]
    exact ⟨rfl, rfl⟩
  · rw [mapBipolar_of_gt hb]
    exact ⟨rfl, rfl⟩
  · rw [mapBipolar_of_lt hb]
    exact ⟨rfl, rfl⟩

/-- R29: both lines of every channel stand on the outputs PIN_MAP binds. -/
theorem lines_mem_outputs (t : State) (c : Channel) :
    ((Config.pinMap c).a, t.lineA c) ∈ t.outputs ∧ ((Config.pinMap c).b, t.lineB c) ∈ t.outputs := by
  cases c <;> simp [State.outputs]

/-- Settles O23: `ch_of_consumesNext` gives the drive states, of which the lines are functions. -/
theorem outputLinesAfterCommand : Obligations.OutputLinesAfterCommand := by
  intro s t hc hstep
  have hch := ch_of_consumesNext hc hstep
  refine ⟨fun c b hcb => lines_of_mapBipolar ?_, congrArg lineAOf (hch .intake), congrArg lineBOf (hch .intake),
    lines_mem_outputs t⟩
  rcases hcb with ⟨rfl, rfl⟩ | ⟨rfl, rfl⟩
  · exact hch .left
  · exact hch .right

end Sys2Proof.Machine
end

section
/-! SUPPORT. The session loop (42_session.md R134, R137, R140): POLL runs the instruction the latched word decodes to,
which consumes the word, and a WRITE in a session makes the word it latches the next one consumed. -/

namespace Sys2Proof.Machine

section
variable {s : State} (hs : s.sess = .connected) (hp : s.pending = true)
include hs hp

/-- R137. -/
theorem poll_of_pending : poll s = exec (decodeWord s.cmdVal) s :=
  if_pos ((pollEnabled_iff s).2 ⟨hs, hp⟩)

/-- R140: the block's own step is the same POLL. -/
theorem runBlock_of_pending : runBlock s = exec (decodeWord s.cmdVal) s :=
  (if_pos ((pollEnabled_iff s).2 ⟨hs, hp⟩)).trans (poll_of_pending hs hp)

end

/-- Settles O20: the scheduled step is POLL at the state without it, and the block's own step is POLL too. -/
theorem pollStepRunsDecodedWord : Obligations.PollStepRunsDecodedWord := by
  refine fun s hs hp => ⟨fun rest hev => ?_, fun hev => ?_⟩
  · exact (step_of_scheduled hev).trans (poll_of_pending (s := { s with events := rest }) hs hp)
  · exact (step_of_unscheduled hev).trans (runBlock_of_pending hs hp)

/-- R137: the whole effect of the step that consumes a command, in the arithmetic of R102 to R107. The POLL it is,
when scheduled, leaves the schedule; the block's own finds none to leave it. -/
theorem consumesNext_effect {s : State} (hc : ConsumesNext s) :
    ∃ t, step s = .next t ∧ t.pending = false ∧
      BipolarResult (codecDecode s.cmdVal).1 t.left ∧ BipolarResult (codecDecode s.cmdVal).2.1 t.right ∧
      IntakeResult (codecDecode s.cmdVal).2.2 t.intake ∧
      t.log = s.log ++ [.applied t.left t.right t.intake] ∧
      t.sess = .connected ∧ t.cmdVal = s.cmdVal ∧ t.events = s.events.tail ∧ t.draws = s.draws := by
  have hs : s.sess = .connected := hc.1
  exact ⟨_, step_of_consumesNext hc, rfl, mapBipolar_result _, mapBipolar_result _, ⟨rfl, rfl, rfl⟩,
    consume_log .., hs, rfl, rfl, rfl⟩

/-- Settles O21. -/
theorem pollConsumesThePendingWord : Obligations.PollConsumesThePendingWord := by
  intro s rest hs hp hev
  have heffect := consumesNext_effect ⟨hs, hp, .inr ⟨rest, hev⟩⟩
  rwa [hev, List.tail_cons] at heffect

/-- Settles O29. The written state has the word latched and pending in the same session, so a POLL next consumes
it. -/
theorem writeLatchesTheWord : Obligations.WriteLatchesTheWord := by
  intro s v rest hs hev
  refine ⟨_, step_of_write hev hs, rfl, rfl, fun _ => rfl, rfl, rfl, rfl, rfl, fun hrest => ?_⟩
  obtain ⟨u, hstep, hpending, hleft, hright, hintake, hlog, -⟩ :=
    consumesNext_effect (s := { s with events := rest, cmdVal := v, pending := true }) ⟨hs, rfl, hrest⟩
  exact ⟨u, hstep, hpending, hleft, hright, hintake, hlog⟩

end Sys2Proof.Machine
end

section
/-! SUPPORT. The decoder over bytes and the encoder (30_encoding.md R70 to R77; 20_memory.md R51, R52): they are
inverse to each other on well-formed instructions, and the decoder refuses nothing but a list that is too short. -/

namespace Sys2Proof.Machine

/-- R52, D4: four transport bytes make the word whose byte 0 is the first to arrive. -/
theorem assemble_eq_codecEncode (t0 t1 t2 t3 : Byte) : assemble t0 t1 t2 t3 = codecEncode t1 t2 t3 t0 := rfl

/-- R52: the transport bytes of a word make it again. -/
theorem assemble_byteOf (v : CmdWord) : assemble (byteOf v 0) (byteOf v 1) (byteOf v 2) (byteOf v 3) = v :=
  calc assemble (byteOf v 0) (byteOf v 1) (byteOf v 2) (byteOf v 3) = v.extractLsb' 8 24 ++ byteOf v 0 :=
      codecEncode_codecDecode v (byteOf v 0)
    _ = v := BitVec.extractLsb'_append_extractLsb' (w := 24) (len := 8)

/-- R52: a word's transport bytes are the four it was made of. -/
theorem split_assemble (t0 t1 t2 t3 : Byte) : split (assemble t0 t1 t2 t3) = [t0, t1, t2, t3] := by
  rw [assemble_eq_codecEncode, split, Config.wireByteOrder, splitWith, byteOf_codecEncode_zero,
    byteOf_codecEncode_one, byteOf_codecEncode_two, byteOf_codecEncode_three]

theorem decode_split (v : CmdWord) (rest : List Byte) : decode .cmd32 (split v ++ rest) = .ok (decodeWord v, rest) :=
  congrArg (fun w => Except.ok (decodeWord w, rest)) (assemble_byteOf v)

theorem decode_bipolar_cons (ch : BipChannel) (b : Byte) (rest : List Byte) :
    decode (.bipolar ch) (b :: rest) = .ok (decodeBip ch b, rest) := rfl

/-- Settles O5. A CMD is the word of its bytes; a command byte is read back in its class, which the byte 0x7F of an
ill-formed REV term would not be. -/
theorem decodeOfEncode : Obligations.DecodeOfEncode := by
  intro i rest hwf
  cases i with
  | cmd i r l x => exact (decode_split _ rest).trans (by rw [decodeWord_codecEncode])
  | bipNeu ch => exact decode_bipolar_cons ch neuByte rest
  | bipFwd ch c => exact (decode_bipolar_cons ch (fwdByte c) rest).trans (by rw [decodeBip_fwdByte])
  | bipRev ch c =>
    exact (decode_bipolar_cons ch (revByte c) rest).trans (by rw [decodeBip_revByte ch ((wf_bipRev_iff ch c).1 hwf)])
  | intPwm c => rfl

/-- Everything the decoder can read, one case for each format. -/
inductive DecodeCase : Format → List Byte → Instr → List Byte → Prop where
  | cmd32 (t0 t1 t2 t3 : Byte) (rest : List Byte) :
      DecodeCase .cmd32 (t0 :: t1 :: t2 :: t3 :: rest) (decodeWord (assemble t0 t1 t2 t3)) rest
  | bipolar (ch : BipChannel) (b : Byte) (rest : List Byte) :
      DecodeCase (.bipolar ch) (b :: rest) (decodeBip ch b) rest
  | intake (b : Byte) (rest : List Byte) : DecodeCase .intake (b :: rest) (.intPwm b) rest

theorem decode_cases {f : Format} {bs : List Byte} {i : Instr} {rest : List Byte} (h : decode f bs = .ok (i, rest)) :
    DecodeCase f bs i rest := by
  cases f with
  | cmd32 =>
    match bs with
    | [] | [_] | [_, _] | [_, _, _] => cases h
    | _ :: _ :: _ :: _ :: _ => cases h; exact .cmd32 ..
  | bipolar ch =>
    match bs with
    | [] => cases h
    | _ :: _ => cases h; exact .bipolar ..
  | intake =>
    match bs with
    | [] => cases h
    | _ :: _ => cases h; exact .intake ..

/-- R71: a word's CMD encodes to the transport bytes of the word. -/
theorem encode_decodeWord (v : CmdWord) : encode (decodeWord v) = split v :=
  congrArg split (assemble_byteOf v)

/-- R75: the class of a byte is a well-formed instruction of the byte's format, which encodes to the byte. -/
theorem decodeBip_spec (ch : BipChannel) (b : Byte) :
    (decodeBip ch b).wf = true ∧ (decodeBip ch b).format = .bipolar ch ∧ encode (decodeBip ch b) = [b] := by
  cases byteClass b with
  | neu => exact ⟨rfl, rfl, rfl⟩
  | fwd c => rw [decodeBip_fwdByte]; exact ⟨rfl, rfl, rfl⟩
  | rev c hc => rw [decodeBip_revByte ch hc]; exact ⟨(wf_bipRev_iff ch c).2 hc, rfl, rfl⟩

/-- Settles O6. -/
theorem encodeOfDecode : Obligations.EncodeOfDecode := by
  intro f bs i rest h
  cases decode_cases h with
  | cmd32 t0 t1 t2 t3 => rw [encode_decodeWord, split_assemble]; exact ⟨rfl, rfl, rfl⟩
  | bipolar ch b =>
    obtain ⟨hwf, hformat, hbytes⟩ := decodeBip_spec ch b
    rw [hbytes]
    exact ⟨hwf, hformat, rfl⟩
  | intake b => exact ⟨rfl, rfl, rfl⟩

/-- R51, R70: a list shorter than its format is no instruction. -/
theorem decode_of_short {f : Format} {bs : List Byte} (h : bs.length < f.bytes) :
    decode f bs = .error (.tooShort f bs.length) := by
  cases f with
  | cmd32 =>
    match bs with
    | [] | [_] | [_, _] | [_, _, _] => rfl
    | _ :: _ :: _ :: _ :: _ => simp only [List.length_cons, Format.bytes] at h; omega
  | bipolar | intake =>
    match bs with
    | [] => rfl
    | _ :: _ => simp [Format.bytes] at h

/-- R72, R77: a list long enough for its format is read, whatever its bits. -/
theorem decode_of_long {f : Format} {bs : List Byte} (h : f.bytes ≤ bs.length) : ∃ p, decode f bs = .ok p := by
  cases f with
  | cmd32 =>
    match bs with
    | [] | [_] | [_, _] | [_, _, _] => simp [Format.bytes] at h
    | _ :: _ :: _ :: _ :: _ => exact ⟨_, rfl⟩
  | bipolar | intake =>
    match bs with
    | [] => simp [Format.bytes] at h
    | _ :: _ => exact ⟨_, rfl⟩

/-- Settles O7. -/
theorem decodeRefusesOnlyShortInput : Obligations.DecodeRefusesOnlyShortInput := by
  refine fun f bs => ⟨⟨fun ⟨p, hp⟩ => ?_, decode_of_long⟩, decode_of_short⟩
  by_contra hshort
  rw [decode_of_short (Nat.lt_of_not_le hshort)] at hp
  cases hp

/-- Settles O8: the fields of the classes are the low 7 bits, in arithmetic. -/
theorem commandByteClasses : Obligations.CommandByteClasses := by
  refine fun ch b => ⟨fun h => ?_, fun h => ?_, fun h => ?_, rfl⟩
  · have hb : b = neuByte := BitVec.eq_of_toNat_eq h
    rw [hb, decodeBip_neuByte]
  · obtain ⟨c, rfl⟩ := (gt_127_iff_fwdByte b).1 h
    exact ⟨c, decodeBip_fwdByte ch c, by rw [fwdByte_toNat, Nat.add_sub_cancel_left]⟩
  · obtain ⟨c, hc, rfl⟩ := (lt_127_iff_revByte b).1 h
    exact ⟨c, decodeBip_revByte ch hc, (revByte_toNat c).symm⟩

/-- Settles O9: each spelling computes. -/
theorem spelledWordsDecode : Obligations.SpelledWordsDecode :=
  ⟨rfl, rfl, rfl, rfl, rfl, rfl⟩

end Sys2Proof.Machine
end

section
/-! SUPPORT. The pseudo-commands (30_encoding.md R82): each is a word or a byte of the encoding, so what it does to the
channels is what the command word does (41_drive_mapper.md R110). -/

namespace Sys2Proof.Machine

/-- R81, R110: running a spelled word consumes the bytes it spells. -/
theorem exec_cmdSpelling (l r i x : Byte) (s : State) :
    exec (decodeWord (cmdSpelling l r i x)) s = .next (s.consume l r i) := by
  rw [cmdSpelling, decodeWord_codecEncode, exec_cmd]

/-- R24, R110: the drives and lines a consumed command leaves. -/
theorem drivesAre_consume (s : State) (l r i : Byte) :
    DrivesAre (s.consume l r i) (mapBipolar l) (mapBipolar r) i :=
  ⟨rfl, rfl, ⟨rfl, rfl, rfl⟩, rfl, rfl, rfl, rfl, rfl, rfl⟩

/-- R82: the effect of a spelled word, from any state. -/
theorem exec_cmdSpelling_drives (l r i x : Byte) (s : State) :
    ∃ t, exec (decodeWord (cmdSpelling l r i x)) s = .next t ∧ DrivesAre t (mapBipolar l) (mapBipolar r) i :=
  ⟨_, exec_cmdSpelling l r i x s, drivesAre_consume s l r i⟩

section
variable {d : Nat}

theorem bfwd_toNat (hd : d ≤ 254) : (bfwd d).toNat = 127 + d / 2 := by
  rw [bfwd, BitVec.toNat_ofNat]
  omega

theorem brev_toNat : (brev d).toNat = 127 - d / 2 := by
  rw [brev, BitVec.toNat_ofNat]
  omega

theorem mapBipolar_bfwd (heven : d % 2 = 0) (hd0 : 2 ≤ d) (hd : d ≤ 254) :
    mapBipolar (bfwd d) = { aEn := true, bEn := false, duty := BitVec.ofNat 8 d } := by
  have hb := bfwd_toNat hd
  have hduty : 2 * (bfwd d).toNat - 254 = d := by omega
  rw [mapBipolar_of_gt (by omega), hduty]

theorem mapBipolar_brev (heven : d % 2 = 0) (hd0 : 2 ≤ d) (hd : d ≤ 254) :
    mapBipolar (brev d) = { aEn := false, bEn := true, duty := BitVec.ofNat 8 d } := by
  have hb := brev_toNat (d := d)
  have hduty : 254 - 2 * (brev d).toNat = d := by omega
  rw [mapBipolar_of_lt (by omega), hduty]

end

/-- Settles O19. -/
theorem pseudoCommandEffects : Obligations.PseudoCommandEffects := by
  refine ⟨fun d heven hd0 hd =>
    ⟨bfwd_toNat hd, brev_toNat, mapBipolar_bfwd heven hd0 hd, mapBipolar_brev heven hd0 hd⟩,
    ⟨rfl, mapBipolar_neuByte⟩, rfl, rfl, rfl, rfl, fun d => codecDecode_codecEncode _ _ d _, ?_⟩
  exact ⟨exec_cmdSpelling_drives 0x7F#8 0x7F#8 0 0, exec_cmdSpelling_drives 0xFE#8 0xFE#8 0 0,
    exec_cmdSpelling_drives 0 0 0 0, exec_cmdSpelling_drives 0xFE#8 0 0 0,
    fun d => exec_cmdSpelling_drives 0x7F#8 0x7F#8 d 0⟩

end Sys2Proof.Machine
end

section
/-! SUPPORT. The invariants (a) to (e) of 10_state.md R25: they hold of a neutral block, and every step keeps them. -/

namespace Sys2Proof.Machine

section
variable (l : List LogEvent)

@[simp] theorem appliedSinceReset_reset (ok : Bool) : appliedSinceReset (l ++ [LogEvent.reset ok]) = false := by
  simp [appliedSinceReset]

@[simp] theorem appliedSinceReset_connected (id : RemoteId) :
    appliedSinceReset (l ++ [LogEvent.connected id]) = appliedSinceReset l := by
  simp [appliedSinceReset]

@[simp] theorem appliedSinceReset_disconnected :
    appliedSinceReset (l ++ [LogEvent.disconnected]) = appliedSinceReset l := by
  simp [appliedSinceReset]

end

/-- R170: RESET leaves every channel neutral. -/
theorem reinit_ch (s : State) (ok : Bool) (c : Channel) : (s.reinit ok).ch c = neutral := by
  cases c <;> rfl

/-- R33: every channel is neutral after power-on and RESET. -/
theorem reset_ch (c : Channel) : State.reset.ch c = neutral := by
  cases c <;> rfl

/-- R33, R170: a block at its reset drive with nothing pending and no command since. -/
theorem stateInv_of_neutral {t : State} (hch : ∀ c, t.ch c = neutral) (hp : t.pending = false)
    (hlog : appliedSinceReset t.log = false) : StateInv t where
  notBoth c := by rw [hch c]; decide
  offIsZero c _ _ := by rw [hch c]; rfl
  intakeB := congrArg DriveInstr.bEn (hch .intake)
  intakeA h := by rw [hlog] at h; cases h
  leftEven := by rw [← ch_left, hch]; rfl
  rightEven := by rw [← ch_right, hch]; rfl
  noStray _ := hp

/-- A step that writes no drive state and no command keeps (a) to (d). -/
theorem StateInv.of_sameDrive {s t : State} (hi : StateInv s) (hd : SameDrive s t)
    (hlog : appliedSinceReset t.log = appliedSinceReset s.log) (hp : t.sess ≠ .connected → t.pending = false) :
    StateInv t where
  notBoth c := by rw [hd c]; exact hi.notBoth c
  offIsZero c := by rw [hd c]; exact hi.offIsZero c
  intakeB := (congrArg DriveInstr.bEn (hd .intake)).trans hi.intakeB
  intakeA h := (congrArg DriveInstr.aEn (hd .intake)).trans (hi.intakeA (hlog ▸ h))
  leftEven := by rw [← ch_left, hd]; exact hi.leftEven
  rightEven := by rw [← ch_right, hd]; exact hi.rightEven
  noStray := hp

/-- R102 to R104: the bipolar mapping never drives both lines, and its neutral result has duty 0. -/
theorem mapBipolar_lines (b : Byte) :
    ¬((mapBipolar b).aEn = true ∧ (mapBipolar b).bEn = true) ∧
    ((mapBipolar b).aEn = false → (mapBipolar b).bEn = false → (mapBipolar b).duty = 0) := by
  rcases Nat.lt_trichotomy b.toNat 127 with h | h | h
  · rw [mapBipolar_of_lt h]; simp
  · rw [mapBipolar_of_eq h]; decide
  · rw [mapBipolar_of_gt h]; simp

/-- R110, R137: what a consumed command leaves meets the invariants, whatever the drive before. -/
theorem stateInv_consume (s : State) (l r i : Byte) : StateInv (s.consume l r i) where
  notBoth c := by
    cases c with
    | left => exact (mapBipolar_lines l).1
    | right => exact (mapBipolar_lines r).1
    | intake => exact fun h => Bool.false_ne_true h.2
  offIsZero c := by
    cases c with
    | left => exact (mapBipolar_lines l).2
    | right => exact (mapBipolar_lines r).2
    | intake => exact fun h _ => absurd h.symm Bool.false_ne_true
  intakeB := rfl
  intakeA _ := rfl
  leftEven := mapBipolar_duty_even l
  rightEven := mapBipolar_duty_even r
  noStray _ := rfl

/-- Settles O34. -/
theorem blockInvariantsAtReset : Obligations.BlockInvariantsAtReset :=
  stateInv_of_neutral reset_ch rfl rfl

/-- Settles O35. A RESET leaves the block neutral, a POLL leaves the drive of a command; every other step leaves the
drive it found. -/
theorem blockInvariantsKept : Obligations.BlockInvariantsKept := by
  intro s t hi h
  cases step_cases h with
  | reset ok rest => exact stateInv_of_neutral (reinit_ch _ ok) rfl (appliedSinceReset_reset ..)
  | connect => exact hi.of_sameDrive (fun _ => rfl) (appliedSinceReset_connected ..) fun _ => rfl
  | disconnect => exact hi.of_sameDrive (fun _ => rfl) (appliedSinceReset_disconnected _) fun _ => rfl
  | write _ _ _ _ _ hs => exact hi.of_sameDrive (fun _ => rfl) rfl fun hne => absurd hs hne
  | dropped => exact hi.of_sameDrive (fun _ => rfl) rfl hi.noStray
  | poll | block => exact stateInv_consume ..

/-- R78: no line driven is the direction NEU. -/
theorem dirOf_undriven (duty : Byte) : dirOf { aEn := false, bEn := false, duty := duty } = some .neu := by
  simp [dirOf, dirCode, Dir.ofCode]

/-- R24, R78: a drive state that does not drive both lines has a line LOW and a direction. -/
theorem low_and_dir_of_notBoth {d : DriveInstr} (h : ¬(d.aEn = true ∧ d.bEn = true)) :
    (lineAOf d = .low ∨ lineBOf d = .low) ∧ ∃ dir, dirOf d = some dir := by
  obtain ⟨a, b, duty⟩ := d
  match a, b with
  | true, true => exact absurd ⟨rfl, rfl⟩ h
  | true, false => exact ⟨.inr rfl, .fwd, dirOf_lineA duty⟩
  | false, true => exact ⟨.inl rfl, .rev, dirOf_lineB duty⟩
  | false, false => exact ⟨.inl rfl, .neu, dirOf_undriven duty⟩

/-- Settles O36. -/
theorem neverBothLinesDriven : Obligations.NeverBothLinesDriven :=
  fun _ hi c => low_and_dir_of_notBoth (hi.notBoth c)

end Sys2Proof.Machine
end

section
/-! SUPPORT. What the observation log tells (10_state.md R23, R30; 42_session.md R141): the session of its last RESET,
CONNECT or DISCONNECT, and on each channel the last drive instruction since the last RESET. -/

namespace Sys2Proof.Machine

section
variable (l : List LogEvent) (c : Channel)

@[simp] theorem sessOfLog_reset (ok : Bool) : sessOfLog (l ++ [LogEvent.reset ok]) = if ok then .idle else .halted := by
  cases ok <;> simp [sessOfLog]

@[simp] theorem sessOfLog_connected (id : RemoteId) : sessOfLog (l ++ [LogEvent.connected id]) = .connected := by
  simp [sessOfLog]

@[simp] theorem sessOfLog_disconnected : sessOfLog (l ++ [LogEvent.disconnected]) = .idle := by simp [sessOfLog]

@[simp] theorem sessOfLog_applied (dL dR dI : DriveInstr) :
    sessOfLog (l ++ [LogEvent.applied dL dR dI]) = sessOfLog l := by simp [sessOfLog]

@[simp] theorem driveOfLog_reset (ok : Bool) : driveOfLog c (l ++ [LogEvent.reset ok]) = Config.resetDrive c := by
  simp [driveOfLog]

@[simp] theorem driveOfLog_connected (id : RemoteId) :
    driveOfLog c (l ++ [LogEvent.connected id]) = driveOfLog c l := by
  simp [driveOfLog]

/-- D13: the fail-safe is off. -/
@[simp] theorem driveOfLog_disconnected : driveOfLog c (l ++ [LogEvent.disconnected]) = driveOfLog c l := by
  simp [driveOfLog, Config.failsafeOnDisconnect]

@[simp] theorem driveOfLog_appliedEvent (v : CmdWord) :
    driveOfLog c (l ++ [appliedEvent v]) = consumedDrive v c := by
  cases c <;> simp [driveOfLog, appliedEvent, consumedDrive]

end

/-- R137: the event a consumed word leaves is `appliedEvent`. -/
theorem consume_log_appliedEvent (s : State) (v : CmdWord) :
    (s.consume (byteOf v 1) (byteOf v 2) (byteOf v 3)).log = s.log ++ [appliedEvent v] := rfl

/-- R137: a consumed word is told by its own event. -/
theorem logTellsState_consume {s : State} (v : CmdWord) (hs : s.sess = sessOfLog s.log) :
    LogTellsState (s.consume (byteOf v 1) (byteOf v 2) (byteOf v 3)) := by
  refine ⟨?_, fun c => ?_⟩
  · rw [consume_log, sessOfLog_applied, consume_sess, hs]
  · rw [consume_log_appliedEvent, driveOfLog_appliedEvent, consume_ch]

/-- Settles O37. -/
theorem logTellsStateAtReset : Obligations.LogTellsStateAtReset :=
  ⟨(sessOfLog_reset [] true).symm, reset_ch⟩

/-- Settles O38: an emitted event tells what its own step changes, and a step that emits none changes neither. -/
theorem logTellsStateKept : Obligations.LogTellsStateKept := by
  rintro s t ⟨hsess, hch⟩ h
  cases step_cases h with
  | reset ok => exact ⟨(sessOfLog_reset ..).symm, fun c => (reinit_ch _ ok c).trans (driveOfLog_reset ..).symm⟩
  | connect id rest => exact ⟨(sessOfLog_connected ..).symm, fun c => (hch c).trans (driveOfLog_connected ..).symm⟩
  | disconnect => exact ⟨(sessOfLog_disconnected _).symm, fun c => (hch c).trans (driveOfLog_disconnected ..).symm⟩
  | write | dropped => exact ⟨hsess, hch⟩
  | poll rest => exact logTellsState_consume (s := { s with events := rest }) s.cmdVal hsess
  | block => exact logTellsState_consume s.cmdVal hsess

end Sys2Proof.Machine
end

section
/-! SUPPORT. Which steps change the pending flag, the session and the log (10_state.md R27, R28, R30; 42_session.md
R141). -/

namespace Sys2Proof.Machine

/-- R27, R134: the flag rises only by a WRITE in a session. -/
theorem write_of_pending_set {s t : State} (h : step s = .next t) (h0 : s.pending = false) (h1 : t.pending = true) :
    s.sess = .connected ∧ ∃ e rest v, s.events = e :: rest ∧ wordOf e = some v ∧ t.cmdVal = v := by
  cases step_cases h with
  | reset | connect | disconnect => cases h1
  | write e v rest hev he hs => exact ⟨hs, e, rest, v, hev, he, rfl⟩
  | dropped => exact absurd (h1.symm.trans h0) Bool.false_ne_true.symm
  | poll _ _ _ hp | block _ _ hp => rw [hp] at h0; cases h0

/-- R27: the flag falls only by a consuming POLL, a CONNECT, a DISCONNECT or a RESET. -/
theorem clearing_of_pending_cleared {s t : State} (h : step s = .next t) (h1 : s.pending = true)
    (h0 : t.pending = false) :
    ConsumesNext s ∨ (∃ id rest, s.events = .connect id :: rest) ∨ (∃ rest, s.events = .disconnect :: rest) ∨
    ∃ ok rest, s.events = .reset ok :: rest := by
  cases step_cases h with
  | reset ok rest hev => exact .inr (.inr (.inr ⟨ok, rest, hev⟩))
  | connect id rest hev => exact .inr (.inl ⟨id, rest, hev⟩)
  | disconnect rest hev => exact .inr (.inr (.inl ⟨rest, hev⟩))
  | write => cases h0
  | dropped => exact absurd (h1.symm.trans h0) Bool.false_ne_true.symm
  | poll rest hev hs hp => exact .inl ⟨hs, hp, .inr ⟨rest, hev⟩⟩
  | block hev hs hp => exact .inl ⟨hs, hp, .inl hev⟩

/-- Settles O39. -/
theorem onlyTheseStepsChangePending : Obligations.OnlyTheseStepsChangePending :=
  fun _ _ h => ⟨write_of_pending_set h, clearing_of_pending_cleared h⟩

/-- Settles O40. -/
theorem onlyTheseStepsChangeTheSession : Obligations.OnlyTheseStepsChangeTheSession := by
  intro s t h hne
  cases step_cases h with
  | reset ok rest hev => exact .inl ⟨ok, rest, hev, rfl⟩
  | connect id rest hev hs => exact .inr (.inl ⟨id, rest, hev, hs, rfl⟩)
  | disconnect rest hev hs => exact .inr (.inr ⟨rest, hev, hs, rfl⟩)
  | write | dropped | poll | block => exact absurd rfl hne

/-- Settles O42. -/
theorem logIsAppendOnly : Obligations.LogIsAppendOnly := by
  intro s t h
  cases step_cases h with
  | write | dropped => exact ⟨[], (List.append_nil _).symm, Nat.zero_le 1⟩
  | reset | connect | disconnect | poll | block => exact ⟨[_], rfl, Nat.le_refl 1⟩

end Sys2Proof.Machine
end

section
/-! SUPPORT. The other outcomes of a step (42_session.md R131, R133, R138 to R141; 20_memory.md R51): a scheduled step
that is no move is refused by its name, and with nothing scheduled and no enabled POLL the machine is stuck. -/

namespace Sys2Proof.Machine

/-- The stop that names what an unscheduled block waits for (R138, R139, R156; log 8). -/
def stuckFault : Sess → Fault
  | .idle => .waitingForConnect
  | .connected => .waitingForWrite
  | .halted => .halted

/-- The refusal that names a scheduled step which is no move; RESET and WRITE always are moves (log 7). -/
def refusalOf : Event → Option Refusal
  | .reset _ => none
  | .connect _ => some .connectNotIdle
  | .disconnect => some .disconnectNotConnected
  | .write _ => none
  | .deliver _ => some .deliveryNotOneWord
  | .poll => some .pollNotEnabled

/-- R131. -/
theorem connect_of_not_idle {s : State} (id : RemoteId) (hs : s.sess ≠ .idle) :
    connect id s = .refused .connectNotIdle := by
  unfold connect
  split
  · exact absurd ‹_› hs
  · rfl
  · rfl

/-- R133. -/
theorem disconnectWith_of_not_connected {s : State} (failsafe : Bool) (hs : s.sess ≠ .connected) :
    disconnectWith failsafe s = .refused .disconnectNotConnected := by
  unfold disconnectWith
  split
  · exact absurd ‹_› hs
  · rfl
  · rfl

section
variable {s : State} (h : ¬(s.sess = .connected ∧ s.pending = true))
include h

/-- R138. -/
theorem poll_of_not_enabled : poll s = .refused .pollNotEnabled :=
  if_neg (mt (pollEnabled_iff s).1 h)

/-- R138, R139. -/
theorem runBlock_of_not_enabled : runBlock s = .fault (stuckFault s.sess) := by
  rw [runBlock, if_neg (mt (pollEnabled_iff s).1 h)]
  cases s.sess <;> rfl

end

/-- R51: the port takes exactly one word. -/
theorem deliver_of_length_ne {bytes : List Byte} (s : State) (h : bytes.length ≠ 4) :
    deliver bytes s = .refused .deliveryNotOneWord := by
  unfold deliver
  split
  · exact absurd rfl h
  · rfl

/-- R52: a delivery of four bytes writes their word. -/
theorem wordOf_deliver {bytes : List Byte} (h : bytes.length = 4) : ∃ v, wordOf (.deliver bytes) = some v := by
  obtain ⟨t0, t1, t2, t3, rfl⟩ := List.length_eq_four.1 h
  exact ⟨_, rfl⟩

/-- R52: both spellings of a WRITE run as the WRITE of their word. -/
theorem runEvent_of_word {e : Event} {v : CmdWord} {s : State} (he : wordOf e = some v) :
    runEvent e s = write v s := by
  cases e with
  | write w => cases he; rfl
  | deliver bytes =>
    match bytes with
    | [_, _, _, _] => cases he; rfl
    | [] | [_] | [_, _] | [_, _, _] | _ :: _ :: _ :: _ :: _ :: _ => cases he
  | reset | connect | disconnect | poll => cases he

/-- R134: a WRITE of either spelling in a session latches its word and sets the flag. -/
theorem step_of_word {s : State} {e : Event} {v : CmdWord} {rest : List Event} (h : s.events = e :: rest)
    (he : wordOf e = some v) (hs : s.sess = .connected) :
    step s = .next { s with events := rest, cmdVal := v, pending := true } := by
  rw [step_of_scheduled h, runEvent_of_word he]
  exact write_connected (s := { s with events := rest }) v hs

/-- R141: a scheduled step that writes a word is a move in every state. -/
theorem step_of_word_exists {s : State} {e : Event} {v : CmdWord} {rest : List Event} (h : s.events = e :: rest)
    (he : wordOf e = some v) : ∃ t, step s = .next t ∧ t.events = rest := by
  by_cases hs : s.sess = .connected
  · exact ⟨_, step_of_word h he hs, rfl⟩
  · exact ⟨_, step_of_dropped_event h he hs, rfl⟩

/-- R141: a scheduled step that is a move runs, and leaves the schedule. -/
theorem step_of_move {s : State} {e : Event} {rest : List Event} (h : s.events = e :: rest) (hm : IsMove s e) :
    ∃ t, step s = .next t ∧ t.events = rest := by
  cases e with
  | reset ok => exact ⟨_, step_of_reset h, rfl⟩
  | connect id => exact ⟨_, step_of_connect h hm, rfl⟩
  | disconnect => exact ⟨_, step_of_disconnect h hm, rfl⟩
  | write v => exact step_of_word_exists h rfl
  | deliver bytes =>
    obtain ⟨v, hv⟩ := wordOf_deliver hm
    exact step_of_word_exists h hv
  | poll => exact ⟨_, step_of_poll h hm.1 hm.2, rfl⟩

/-- R131, R133, R138, D28: a scheduled step that is no move is refused by its name. -/
theorem step_of_not_move {s : State} {e : Event} {rest : List Event} (h : s.events = e :: rest)
    (hm : ¬IsMove s e) : ∃ r, refusalOf e = some r ∧ step s = .refused r := by
  rw [step_of_scheduled h]
  cases e with
  | reset | write => exact absurd trivial hm
  | connect id => exact ⟨_, rfl, connect_of_not_idle (s := { s with events := rest }) id hm⟩
  | disconnect => exact ⟨_, rfl, disconnectWith_of_not_connected (s := { s with events := rest }) _ hm⟩
  | deliver bytes => exact ⟨_, rfl, deliver_of_length_ne _ hm⟩
  | poll => exact ⟨_, rfl, poll_of_not_enabled (s := { s with events := rest }) hm⟩

/-- R138, R139: with nothing scheduled and no enabled POLL the machine is stuck. -/
theorem step_of_stuck {s : State} (h : s.events = []) (hp : ¬(s.sess = .connected ∧ s.pending = true)) :
    step s = .fault (stuckFault s.sess) :=
  (step_of_unscheduled h).trans (runBlock_of_not_enabled hp)

/-- How a step can end: with a next state (`StepCase` says which), stuck, or with a scheduled step refused. -/
inductive StepEnd (s : State) : Host.Outcome State Fault Refusal → Prop where
  | next (t : State) : StepEnd s (.next t)
  | stuck (hev : s.events = []) (hp : ¬(s.sess = .connected ∧ s.pending = true)) :
      StepEnd s (.fault (stuckFault s.sess))
  | refused (e : Event) (rest : List Event) (r : Refusal) (hev : s.events = e :: rest) (hm : ¬IsMove s e)
      (hr : refusalOf e = some r) : StepEnd s (.refused r)

theorem step_end (s : State) : StepEnd s (step s) := by
  cases hev : s.events with
  | nil =>
    by_cases hp : s.sess = .connected ∧ s.pending = true
    · rw [step_of_block hev hp.1 hp.2]
      exact .next _
    · rw [step_of_stuck hev hp]
      exact .stuck hev hp
  | cons e rest =>
    by_cases hm : IsMove s e
    · obtain ⟨t, hstep, -⟩ := step_of_move hev hm
      rw [hstep]
      exact .next t
    · obtain ⟨r, hr, hstep⟩ := step_of_not_move hev hm
      rw [hstep]
      exact .refused e rest r hev hm hr

/-- Settles O22. -/
theorem pollWithoutCommandIsNoMove : Obligations.PollWithoutCommandIsNoMove := by
  refine fun s hp => ⟨fun rest h => ?_, fun h => ?_⟩
  · obtain ⟨r, hr, hstep⟩ := step_of_not_move h hp
    cases hr
    exact hstep
  · rw [step_of_stuck h hp]
    refine ⟨fun hs => ?_, fun hs => ?_, fun hs => ?_⟩ <;> rw [hs] <;> rfl

/-- Settles O30. -/
theorem writeOutsideSessionIsDropped : Obligations.WriteOutsideSessionIsDropped :=
  fun _ _ _ hs h => step_of_dropped_write h hs

/-- R52, D4: the first byte to arrive is the least significant. -/
theorem assemble_toNat (t0 t1 t2 t3 : Byte) :
    (assemble t0 t1 t2 t3).toNat = t0.toNat + 256 * t1.toNat + 65536 * t2.toNat + 16777216 * t3.toNat := by
  have happend : ∀ {w : Nat} (x : BitVec w) (b : Byte), (x ++ b).toNat = x.toNat * 256 + b.toNat := by
    intro w x b
    rw [BitVec.toNat_append, ← Nat.shiftLeft_add_eq_or_of_lt b.isLt, Nat.shiftLeft_eq]
  simp only [assemble, assembleWith, Config.wireByteOrder, happend]
  omega

/-- Settles O31: a delivery of four bytes is by definition the WRITE of their word. -/
theorem deliveredBytesAreLittleEndian : Obligations.DeliveredBytesAreLittleEndian :=
  ⟨fun _ t0 t1 t2 t3 _ => ⟨assemble t0 t1 t2 t3, assemble_toNat t0 t1 t2 t3, rfl⟩,
    fun _ _ _ hlen h => (step_of_scheduled h).trans (deliver_of_length_ne _ hlen)⟩

/-- Settles O32. -/
theorem scheduledStepRunsExactlyWhenAMove : Obligations.ScheduledStepRunsExactlyWhenAMove := by
  refine fun s e rest h => ⟨step_of_move h, fun hm => ?_⟩
  obtain ⟨r, -, hstep⟩ := step_of_not_move h hm
  exact ⟨r, hstep⟩

/-- Settles O33. Of the cases of a step, only a RESET and a dropped WRITE start in HALTED. -/
theorem haltedUntilReset : Obligations.HaltedUntilReset := by
  intro s hs
  have hidle : s.sess ≠ .idle := by rw [hs]; decide
  have hconn : s.sess ≠ .connected := by rw [hs]; decide
  refine ⟨fun t h hreset => ?_, fun id rest h => ?_, fun rest h => ?_, fun h => ?_⟩
  · cases step_cases h with
    | reset ok rest hev => exact absurd hev (hreset ok rest)
    | dropped => exact ⟨hs, fun _ => rfl, rfl, rfl, rfl⟩
    | connect _ _ _ hs' => exact absurd hs' hidle
    | disconnect _ _ hs' | write _ _ _ _ _ hs' | poll _ _ hs' | block _ hs' => exact absurd hs' hconn
  · exact (step_of_scheduled h).trans (connect_of_not_idle (s := { s with events := rest }) id hidle)
  · exact (step_of_scheduled h).trans (disconnectWith_of_not_connected (s := { s with events := rest }) _ hconn)
  · rw [step_of_stuck h fun hp => hconn hp.1, hs, stuckFault]

/-- Settles O47: what is not quiescent is a session with its POLL enabled, which the block takes. -/
theorem quiescentWithinOnePoll : Obligations.QuiescentWithinOnePoll := by
  refine fun s h => ⟨fun hq => ⟨_, step_of_stuck h ?_⟩, fun hq => ?_⟩
  · rintro ⟨hs, hp⟩
    rcases hq with hp' | hs'
    · exact Bool.false_ne_true (hp'.symm.trans hp)
    · exact hs' hs
  · rw [Quiescent, not_or, Bool.not_eq_false, not_not] at hq
    obtain ⟨hp, hs⟩ := hq
    exact ⟨_, step_of_block h hs hp, h, .inl rfl, hs⟩

end Sys2Proof.Machine
end

section
/-! SUPPORT. With nothing pending the command latch is read by no step (10_state.md R33; 70_reset_and_hazards.md
R170). -/

namespace Sys2Proof.Machine

section
variable {s : State} (v : CmdWord) (hp : s.pending = false)
include hp

/-- A step of a block with nothing pending goes the same way whatever is latched; a WRITE replaces the latch, and the
other steps carry it along or draw it anew. -/
theorem step_next_of_other_latch {t : State} (h : step s = .next t) :
    ∃ w, step { s with cmdVal := v } = .next { t with cmdVal := w } ∧ (t.pending = true → w = t.cmdVal) := by
  cases step_cases h with
  | reset ok rest hev => exact ⟨_, step_of_reset (s := { s with cmdVal := v }) hev, fun _ => rfl⟩
  | connect id rest hev hs =>
    exact ⟨v, step_of_connect (s := { s with cmdVal := v }) hev hs, fun ht => absurd ht Bool.false_ne_true⟩
  | disconnect rest hev hs =>
    exact ⟨v, step_of_disconnect (s := { s with cmdVal := v }) hev hs, fun ht => absurd ht Bool.false_ne_true⟩
  | write e w rest hev he hs => exact ⟨w, step_of_word (s := { s with cmdVal := v }) hev he hs, fun _ => rfl⟩
  | dropped e w rest hev he hs =>
    exact ⟨v, step_of_dropped_event (s := { s with cmdVal := v }) hev he hs,
      fun ht => absurd (hp.symm.trans ht) Bool.false_ne_true⟩
  | poll _ _ _ hp' | block _ _ hp' => exact absurd (hp.symm.trans hp') Bool.false_ne_true

end

/-- What is a move does not depend on the latch. -/
theorem isMove_cmdVal_iff (s : State) (v : CmdWord) (e : Event) : IsMove { s with cmdVal := v } e ↔ IsMove s e := by
  cases e <;> rfl

/-- Settles O43. The stops do not read the latch either: what is a move, and what the block waits for, is told by the
session and the flag. -/
theorem unwrittenLatchIsUnread : Obligations.UnwrittenLatchIsUnread := by
  refine fun s v hp => ⟨fun t h => ?_, fun r h => ?_, fun r h => ?_⟩
  · obtain ⟨w, hstep, hw⟩ := step_next_of_other_latch v hp h
    exact ⟨_, hstep, rfl, fun ht => by rw [hw ht]⟩
  · have hend := step_end s
    rw [h] at hend
    cases hend with
    | stuck hev hne => exact step_of_stuck (s := { s with cmdVal := v }) hev hne
  · have hend := step_end s
    rw [h] at hend
    cases hend with
    | refused e rest _ hev hm hr =>
      obtain ⟨r', hr', hstep⟩ :=
        step_of_not_move (s := { s with cmdVal := v }) hev (mt (isMove_cmdVal_iff s v e).1 hm)
      rw [hstep, Option.some.inj (hr'.symm.trans hr)]

end Sys2Proof.Machine
end

section
/-! SUPPORT. What each of the host's steps leaves (42_session.md R130, R132; 70_reset_and_hazards.md R170). -/

namespace Sys2Proof.Machine

/-- R24: a neutral channel has both lines LOW. -/
theorem lines_of_neutral {t : State} {c : Channel} (h : t.ch c = neutral) : t.lineA c = .low ∧ t.lineB c = .low :=
  ⟨congrArg lineAOf h, congrArg lineBOf h⟩

/-- Settles O24. -/
theorem resetStep : Obligations.ResetStep := by
  intro s ok rest h
  have hch := reinit_ch { s with events := rest } ok
  exact ⟨_, step_of_reset h, rfl, rfl, fun c => ⟨hch c, lines_of_neutral (hch c)⟩, rfl, rfl⟩

/-- Settles O25. -/
theorem powerOnResetState : Obligations.PowerOnResetState := by
  refine ⟨rfl, rfl, fun c => ⟨reset_ch c, lines_of_neutral (reset_ch c)⟩, rfl, fun s hlog h => ?_⟩
  refine ⟨_, step_of_reset h, rfl, rfl, fun c => (reinit_ch _ true c).trans (reset_ch c).symm, ?_, rfl⟩
  rw [reinit_log, hlog]
  rfl

/-- Settles O26. -/
theorem connectStep : Obligations.ConnectStep := by
  intro s id rest hs h
  exact ⟨_, step_of_connect h hs, rfl, rfl, fun _ => rfl, rfl, rfl, rfl, rfl⟩

/-- Settles O27. -/
theorem disconnectKeepsTheMotorsRunning : Obligations.DisconnectKeepsTheMotorsRunning := by
  intro s rest hs h
  exact ⟨_, step_of_disconnect h hs, rfl, rfl, fun _ => rfl, fun _ => ⟨rfl, rfl⟩, rfl, rfl, rfl, rfl⟩

section
variable {s : State} (hs : s.sess = .connected)
include hs

/-- R132, D13: without the fail-safe the drive stays. -/
theorem disconnectWith_false :
    disconnectWith false s = .next (({ s with sess := .idle }).clearPending.emit .disconnected) := by
  simp only [disconnectWith, hs]
  rfl

/-- R132: with the fail-safe every channel stops. -/
theorem disconnectWith_true :
    disconnectWith true s =
      .next ((({ s with sess := .idle }).clearPending.driveAll fun _ => neutral).emit .disconnected) := by
  simp only [disconnectWith, hs, if_true]

end

/-- Settles O28. -/
theorem failsafeDisconnectStopsEveryChannel : Obligations.FailsafeDisconnectStopsEveryChannel := by
  intro failsafe s hs
  cases failsafe with
  | false =>
    exact ⟨_, disconnectWith_false hs, rfl, rfl, rfl, fun hf => absurd hf Bool.false_ne_true, fun _ _ => rfl,
      rfl, rfl, rfl⟩
  | true =>
    refine ⟨_, disconnectWith_true hs, rfl, rfl, rfl, fun _ c => ?_, fun hf => absurd hf.symm Bool.false_ne_true,
      rfl, rfl, rfl⟩
    have hc := driveAll_ch ({ s with sess := .idle }).clearPending c fun _ => neutral
    have hlines := lines_of_neutral hc
    exact ⟨hlines.1, hlines.2, congrArg DriveInstr.duty hc⟩

end Sys2Proof.Machine
end

section
/-! SUPPORT. Sessions of several commands (20_memory.md R52, R57; 42_session.md R141): runs of a schedule that is
written out. -/

namespace Sys2Proof.Machine

theorem runSteps_one {s t : State} (h : step s = .next t) : runSteps 1 s = .next t := runSteps_next h

/-- R57 (a): of the words written one after another, the last is latched. -/
theorem runSteps_writes {s : State} {vs : List CmdWord} {v : CmdWord} {rest : List Event} (hs : s.sess = .connected)
    (h : s.events = vs.map .write ++ .write v :: rest) :
    runSteps (vs.length + 1) s = .next { s with events := rest, cmdVal := v, pending := true } := by
  induction vs generalizing s with
  | nil => exact runSteps_one (step_of_write h hs)
  | cons w vs ih =>
    rw [List.length_cons, runSteps_next (step_of_write h hs)]
    exact ih hs rfl

/-- Settles O45. -/
theorem lastWriteWins : Obligations.LastWriteWins := by
  intro s vs v rest hs h
  obtain ⟨t, hstep, hpending, hleft, hright, hintake, hlog, hsess, hval, hevents, -⟩ :=
    consumesNext_effect (s := { s with events := .poll :: rest, cmdVal := v, pending := true })
      ⟨hs, rfl, .inr ⟨rest, rfl⟩⟩
  exact ⟨t, (runSteps_add (runSteps_writes hs h)).trans (runSteps_one hstep), hleft, hright, hintake, hlog, hpending,
    hsess, hval, hevents⟩

/-- A session in which the word `v` was written and polled, with the schedule `rest` left (R134, R137). -/
def State.polled (s : State) (v : CmdWord) (rest : List Event) : State :=
  ({ s with events := rest, cmdVal := v }).consume (byteOf v 1) (byteOf v 2) (byteOf v 3)

section
variable (s : State) (v : CmdWord) (rest : List Event)

@[simp] theorem polled_log : (s.polled v rest).log = s.log ++ [appliedEvent v] := rfl
@[simp] theorem polled_ch (c : Channel) : (s.polled v rest).ch c = consumedDrive v c := consume_ch ..

end

theorem runSteps_write_poll {s : State} {v : CmdWord} {rest : List Event} (hs : s.sess = .connected)
    (h : s.events = .write v :: .poll :: rest) : runSteps 2 s = .next (s.polled v rest) := by
  rw [runSteps_next (step_of_write h hs)]
  exact runSteps_one (step_of_poll (s := { s with events := .poll :: rest, cmdVal := v, pending := true }) rfl hs rfl)

/-- R24, R29: the outputs are a function of the drive states. -/
theorem SameDrive.outputs {s t : State} (h : SameDrive s t) : s.outputs = t.outputs := by
  have hl := h.lines
  simp only [State.outputs, fun c => (hl c).1, fun c => (hl c).2]

/-- Settles O51. -/
theorem repeatedWordIsIdempotentOnTheLines : Obligations.RepeatedWordIsIdempotentOnTheLines := by
  intro s v rest hs h
  have hsame : ∀ u : State, SameDrive (s.polled v (.write v :: .poll :: rest)) (u.polled v rest) :=
    fun u c => by rw [polled_ch, polled_ch]
  refine ⟨_, _, runSteps_write_poll hs h, runSteps_write_poll hs rfl, hsame _, (hsame _).outputs, ?_⟩
  rw [polled_log, polled_log, List.append_assoc]
  rfl

/-- R57, R141: words written and polled one by one are applied one by one, in order. -/
theorem runSteps_write_polls {s : State} {vs : List CmdWord} {rest : List Event} (hs : s.sess = .connected)
    (h : s.events = (vs.flatMap fun v => [Event.write v, .poll]) ++ rest) :
    ∃ t, runSteps (2 * vs.length) s = .next t ∧ t.sess = .connected ∧ t.events = rest ∧
      t.log = s.log ++ vs.map appliedEvent := by
  induction vs generalizing s with
  | nil => exact ⟨s, rfl, hs, h, (List.append_nil _).symm⟩
  | cons v vs ih =>
    obtain ⟨t, hrun, hsess, hevents, hlog⟩ := ih (s := s.polled v _) hs rfl
    refine ⟨t, ?_, hsess, hevents, ?_⟩
    · rw [List.length_cons, Nat.mul_succ, Nat.add_comm]
      exact (runSteps_add (runSteps_write_poll hs h)).trans hrun
    · rw [hlog, polled_log, List.append_assoc]
      rfl

/-- Settles O49. -/
theorem sessionFraming : Obligations.SessionFraming := by
  intro s id vs rest hs h
  obtain ⟨u, hconnect, husess, -, -, hulog, -, huevents, -⟩ := connectStep s id _ hs h
  obtain ⟨t, hrun, hsess, hevents, hlog⟩ :=
    runSteps_write_polls (vs := vs) (rest := .disconnect :: rest) husess huevents
  have hend := (runSteps_add hrun).trans (runSteps_one (step_of_disconnect hevents hsess))
  refine ⟨_, (runSteps_next hconnect).trans hend, ?_, rfl, rfl, rfl⟩
  simp [hlog, hulog]

end Sys2Proof.Machine
end

section
/-! SUPPORT. What any run does with the written words (20_memory.md R57; 42_session.md R143; 70_reset_and_hazards.md
R181): each is applied at most once, in order, and none survives the end of its session. -/

namespace Sys2Proof.Machine

/-- The words a run from a state may still apply, in order: the one waiting and those its schedule writes. -/
def unconsumedWords (s : State) : List CmdWord := waitingWords s ++ writtenWords s.events

theorem waitingWords_of_pending {s : State} (h : s.pending = true) : waitingWords s = [s.cmdVal] := if_pos h

theorem waitingWords_of_not_pending {s : State} (h : s.pending = false) : waitingWords s = [] := by
  rw [waitingWords, h, if_neg Bool.false_ne_true]

/-- The words a run applies between two states, by what it adds to the log and by what is left to apply. -/
def Applies (s t : State) (ws : List CmdWord) : Prop :=
  (ws ++ unconsumedWords t).Sublist (unconsumedWords s) ∧
  appliedEvents t.log = appliedEvents s.log ++ ws.map appliedEvent

theorem Applies.trans {s t u : State} {ws ws' : List CmdWord} (h : Applies s t ws) (h' : Applies t u ws') :
    Applies s u (ws ++ ws') := by
  obtain ⟨hsub, hlog⟩ := h
  obtain ⟨hsub', hlog'⟩ := h'
  refine ⟨?_, ?_⟩
  · rw [List.append_assoc]
    exact (hsub'.append_left ws).trans hsub
  · rw [hlog', hlog, List.map_append, List.append_assoc]

/-- R52: a scheduled WRITE is one more word to apply. -/
theorem writtenWords_cons_of_word {e : Event} {v : CmdWord} (rest : List Event) (he : wordOf e = some v) :
    writtenWords (e :: rest) = v :: writtenWords rest := List.filterMap_cons_some he

theorem writtenWords_cons_of_not_word {e : Event} (rest : List Event) (he : wordOf e = none) :
    writtenWords (e :: rest) = writtenWords rest := List.filterMap_cons_none he

theorem appliedEvents_append_appliedEvent (l : List LogEvent) (v : CmdWord) :
    appliedEvents (l ++ [appliedEvent v]) = appliedEvents l ++ [appliedEvent v] := List.filter_append ..

theorem appliedEvents_append_of_not_applied (l : List LogEvent) {e : LogEvent} (he : isApplied e = false) :
    appliedEvents (l ++ [e]) = appliedEvents l := by
  simp [appliedEvents, he]

section
variable {s : State} {e : Event} {rest : List Event}

/-- R27: RESET, CONNECT and DISCONNECT drop the waiting word. -/
theorem applies_of_clearing {t : State} {le : LogEvent} (hev : s.events = e :: rest) (he : wordOf e = none)
    (ht : t.events = rest) (hp : t.pending = false) (hlog : t.log = s.log ++ [le]) (hle : isApplied le = false) :
    Applies s t [] := by
  refine ⟨?_, ?_⟩
  · rw [List.nil_append, unconsumedWords, unconsumedWords, waitingWords_of_not_pending hp, List.nil_append, ht, hev,
      writtenWords_cons_of_not_word rest he]
    exact List.sublist_append_right ..
  · rw [hlog, appliedEvents_append_of_not_applied _ hle, List.map_nil, List.append_nil]

/-- R57 (a): a WRITE in a session takes the place of the waiting word. -/
theorem applies_of_write {v : CmdWord} (hev : s.events = e :: rest) (he : wordOf e = some v) :
    Applies s { s with events := rest, cmdVal := v, pending := true } [] := by
  refine ⟨?_, (List.append_nil _).symm⟩
  rw [unconsumedWords, unconsumedWords, hev, writtenWords_cons_of_word rest he]
  exact List.sublist_append_right ..

/-- R135: a dropped WRITE is never applied. -/
theorem applies_of_dropped {v : CmdWord} (hev : s.events = e :: rest) (he : wordOf e = some v) :
    Applies s { s with events := rest } [] := by
  refine ⟨?_, (List.append_nil _).symm⟩
  rw [unconsumedWords, unconsumedWords, hev, writtenWords_cons_of_word rest he]
  exact (List.sublist_cons_self ..).append_left (waitingWords s)

/-- R137: a POLL applies the waiting word, which then waits no more. -/
theorem applies_of_consume (hp : s.pending = true) (hev : writtenWords s.events = writtenWords rest) :
    Applies s (({ s with events := rest }).consume (byteOf s.cmdVal 1) (byteOf s.cmdVal 2) (byteOf s.cmdVal 3))
      [s.cmdVal] := by
  refine ⟨?_, appliedEvents_append_appliedEvent s.log s.cmdVal⟩
  rw [unconsumedWords, unconsumedWords, waitingWords_of_pending hp, hev]
  exact List.Sublist.refl _

end

theorem step_applies {s t : State} (h : step s = .next t) : ∃ ws, Applies s t ws := by
  cases step_cases h with
  | reset | connect | disconnect => exact ⟨[], applies_of_clearing ‹_› rfl rfl rfl rfl rfl⟩
  | write e v rest hev he => exact ⟨[], applies_of_write hev he⟩
  | dropped e v rest hev he => exact ⟨[], applies_of_dropped hev he⟩
  | poll rest hev hs hp => exact ⟨[s.cmdVal],
    applies_of_consume hp ((congrArg writtenWords hev).trans (writtenWords_cons_of_not_word rest rfl))⟩
  | block hev hs hp => exact ⟨[s.cmdVal], applies_of_consume hp rfl⟩

theorem runSteps_applies {k : Nat} {s t : State} (h : runSteps k s = .next t) : ∃ ws, Applies s t ws := by
  induction k generalizing s with
  | zero => cases h; exact ⟨[], List.Sublist.refl _, (List.append_nil _).symm⟩
  | succ k ih =>
    obtain ⟨u, hstep, hrun⟩ := runSteps_cases h
    obtain ⟨ws, hws⟩ := step_applies hstep
    obtain ⟨ws', hws'⟩ := ih hrun
    exact ⟨ws ++ ws', hws.trans hws'⟩

/-- Settles O46. -/
theorem appliedWordsAreWrittenWordsInOrder : Obligations.AppliedWordsAreWrittenWordsInOrder := by
  intro k s t h
  obtain ⟨ws, hsub, hlog⟩ := runSteps_applies h
  exact ⟨ws, (List.sublist_append_left ..).trans hsub, hlog⟩

/-- R181: with nothing pending, no run applies a word that its schedule does not write. -/
theorem appliesOnlyScheduled_of_not_pending {s : State} (hp : s.pending = false) : AppliesOnlyScheduled s := by
  intro k t h
  obtain ⟨ws, hsub, hlog⟩ := appliedWordsAreWrittenWordsInOrder k s t h
  rw [waitingWords_of_not_pending hp, List.nil_append] at hsub
  exact ⟨ws, hsub, hlog⟩

/-- Settles O50. Every WRITE before the CONNECT is dropped, and CONNECT starts the session with nothing pending. -/
theorem noStaleCommandAfterReconnection : Obligations.NoStaleCommandAfterReconnection := by
  intro s rest hs h
  refine ⟨_, step_of_disconnect h hs, rfl, rfl, rfl, appliesOnlyScheduled_of_not_pending rfl, ?_⟩
  rintro es id rest' rfl hes
  have hidle : Sess.idle ≠ .connected := by decide
  refine ⟨_, (runSteps_add (runSteps_dropped rfl hes hidle)).trans (runSteps_one (step_of_connect rfl rfl)), rfl,
    .inl rfl, rfl, fun _ => rfl, ?_, rfl, appliesOnlyScheduled_of_not_pending rfl⟩
  exact List.append_assoc ..

/-- R138, R143: a step takes one off the schedule, or it is the block's own POLL, after which nothing is pending. -/
theorem schedule_of_step {s t : State} (h : step s = .next t) :
    s.events.length = t.events.length + 1 ∨ (t.events = [] ∧ t.pending = false) := by
  cases step_cases h with
  | reset _ _ hev | connect _ _ hev | disconnect _ hev | write _ _ _ hev | dropped _ _ _ hev | poll _ hev =>
    exact .inl (congrArg List.length hev)
  | block hev => exact .inr ⟨hev, rfl⟩

/-- Settles O48. -/
theorem noRunOutlivesItsSchedule : Obligations.NoRunOutlivesItsSchedule := by
  intro k
  induction k with
  | zero => exact fun _ _ _ => Nat.zero_le _
  | succ k ih =>
    intro s t h
    obtain ⟨u, hstep, hrun⟩ := runSteps_cases h
    rcases schedule_of_step hstep with hlen | ⟨hev, hp⟩
    · have hk := ih u t hrun
      omega
    · cases k with
      | zero => exact Nat.le_add_left ..
      | succ k =>
        obtain ⟨w, hstep', -⟩ := runSteps_cases hrun
        rw [step_of_stuck hev fun hc => Bool.false_ne_true (hp.symm.trans hc.2)] at hstep'
        cases hstep'

end Sys2Proof.Machine
end
